-- ==== Sys2Proof/Word.lean ====
section
/-! DEFINITION. The word types of the machine: 16-bit raw words and 16-bit registers, bytes, and the
operand fields of an instruction (spec/00_scope.md R5, R6, R9). All quantities are unsigned (R6). -/

namespace Sys2Proof

/-- A 16-bit raw word (R90), and the width of I and PC (R5). -/
abbrev Word := BitVec 16

/-- One byte: a memory cell, a V register, DT, ST, SP, and the constant `kk` (R5, R9). -/
abbrev Byte := BitVec 8

/-- A register index, the 4-bit fields `x` and `y` (R9, R21): every value names one of V0..VF. -/
abbrev RegIdx := BitVec 4

/-- The 12-bit field `nnn` (R9). -/
abbrev Addr12 := BitVec 12

end Sys2Proof
end

