-- ==== Sys2Proof/Config.lean ====
section
/-! DEFINITION. What this hardware fixes (spec/00_scope.md R5), the reference values of the spec's OPEN
parameters (spec/92_eei_decisions.md, the table "Parameters left open"), and the one free value. -/

namespace Sys2Proof.Config

/-- `MEM_SIZE` (R5): addresses `memSize` and above do not exist (R71). -/
def memSize : Nat := 4096

/-- `MEM_THRESHOLD` (R5): the lowest valid address (R61). -/
def memThreshold : Nat := 512

/-- Reference value of `ENTRY` (D16). DESIGN CHOICE (log 3): the spec leaves ENTRY open. -/
def entry : Word := 0x200

/-- Reference value of `BASE` (R253, D16). DESIGN CHOICE (log 4): the spec leaves BASE open. -/
def base : Nat := 0x200

/-- FREE VALUE (log 6): what the external timer agent draws, one value for each index of the plain-data
counter of State. It has no body: nothing can be proved about its values (R220, D17). -/
opaque timerDraw : Nat → Byte

end Sys2Proof.Config
end

