-- ==== Sys2Proof/Syntax.lean ====
section
/-! DEFINITION. The instructions: the 27 opcode identities of the catalogue (spec/30_encoding.md R96), the
decoded instructions with "only the operand fields it needs" (R100), and the Instruction value with its
address tag (R100). -/

namespace Sys2Proof

/-- The opcode identities, the `id` column of R96, in catalogue order. -/
inductive OpId where
  | CLS | RET | CALL | SYS | JP
  | SE_VX_KK | SE_VX_VY | SNE_VX_KK | SNE_VX_VY
  | LD_VX_KK | LD_VX_VY | LD_I_NNN | LD_VX_DT | LD_DT_VX | LD_ST_VX | LD_IND_VX | LD_VX_IND
  | ADD_VX_KK | ADD_VX_VY | ADD_I_VX
  | OR | AND | XOR | SUB | SUBN | SHR | SHL
  deriving DecidableEq, Repr

/-- One constructor per row of spec/opcode_table.json, in its order, with the operands of its format (R92). -/
inductive Instr where
  /-- `CLS`, R140. -/
  | cls
  /-- `RET`, R141. -/
  | ret
  /-- `CALL nnn`, R142. -/
  | call (nnn : Addr12)
  /-- `SYS nnn`, R143; `nnn` is neither 0x0E0 nor 0x0EE, whose words are CLS and RET (WellFormed). -/
  | sys (nnn : Addr12)
  /-- `JP nnn`, R144. -/
  | jp (nnn : Addr12)
  /-- `SE Vx,kk`, R145. -/
  | seVxKk (x : RegIdx) (kk : Byte)
  /-- `SE Vx,Vy`, R146. -/
  | seVxVy (x y : RegIdx)
  /-- `SNE Vx,kk`, R147. -/
  | sneVxKk (x : RegIdx) (kk : Byte)
  /-- `SNE Vx,Vy`, R148. -/
  | sneVxVy (x y : RegIdx)
  /-- `LD Vx,kk`, R160. -/
  | ldVxKk (x : RegIdx) (kk : Byte)
  /-- `LD Vx,Vy`, R161. -/
  | ldVxVy (x y : RegIdx)
  /-- `LD I,nnn`, R162. -/
  | ldINnn (nnn : Addr12)
  /-- `LD Vx,DT`, R163. -/
  | ldVxDt (x : RegIdx)
  /-- `LD DT,Vx`, R164. -/
  | ldDtVx (x : RegIdx)
  /-- `LD ST,Vx`, R165. -/
  | ldStVx (x : RegIdx)
  /-- `LD [I],Vx`, R166: store V0..Vx. -/
  | ldIndVx (x : RegIdx)
  /-- `LD Vx,[I]`, R167: load V0..Vx. -/
  | ldVxInd (x : RegIdx)
  /-- `ADD Vx,kk`, R180. -/
  | addVxKk (x : RegIdx) (kk : Byte)
  /-- `ADD Vx,Vy`, R181. -/
  | addVxVy (x y : RegIdx)
  /-- `ADD I,Vx`, R182. -/
  | addIVx (x : RegIdx)
  /-- `OR Vx,Vy`, R183. -/
  | orVxVy (x y : RegIdx)
  /-- `AND Vx,Vy`, R184. -/
  | andVxVy (x y : RegIdx)
  /-- `XOR Vx,Vy`, R185. -/
  | xorVxVy (x y : RegIdx)
  /-- `SUB Vx,Vy`, R186. -/
  | subVxVy (x y : RegIdx)
  /-- `SUBN Vx,Vy`, R187. -/
  | subnVxVy (x y : RegIdx)
  /-- `SHR Vx,Vy`, R200; `y` is decoded and unused by Execute (R202). -/
  | shrVxVy (x y : RegIdx)
  /-- `SHL Vx,Vy`, R201; `y` is decoded and unused by Execute (R202). -/
  | shlVxVy (x y : RegIdx)
  deriving DecidableEq, Repr

/-- The opcode identity of an instruction (R96). -/
def Instr.id : Instr → OpId
  | .cls => .CLS
  | .ret => .RET
  | .call _ => .CALL
  | .sys _ => .SYS
  | .jp _ => .JP
  | .seVxKk _ _ => .SE_VX_KK
  | .seVxVy _ _ => .SE_VX_VY
  | .sneVxKk _ _ => .SNE_VX_KK
  | .sneVxVy _ _ => .SNE_VX_VY
  | .ldVxKk _ _ => .LD_VX_KK
  | .ldVxVy _ _ => .LD_VX_VY
  | .ldINnn _ => .LD_I_NNN
  | .ldVxDt _ => .LD_VX_DT
  | .ldDtVx _ => .LD_DT_VX
  | .ldStVx _ => .LD_ST_VX
  | .ldIndVx _ => .LD_IND_VX
  | .ldVxInd _ => .LD_VX_IND
  | .addVxKk _ _ => .ADD_VX_KK
  | .addVxVy _ _ => .ADD_VX_VY
  | .addIVx _ => .ADD_I_VX
  | .orVxVy _ _ => .OR
  | .andVxVy _ _ => .AND
  | .xorVxVy _ _ => .XOR
  | .subVxVy _ _ => .SUB
  | .subnVxVy _ _ => .SUBN
  | .shrVxVy _ _ => .SHR
  | .shlVxVy _ _ => .SHL

/-- The Instruction value of R100: the decoded instruction and its address tag, a natural number that only
Dump reads (D22, log 20). -/
structure Instruction where
  instr   : Instr
  address : Nat
  deriving DecidableEq, Repr

end Sys2Proof
end

