-- ==== Sys2Proof/WellFormed.lean ====
section
/-! DEFINITION. Which terms of `Instr` are instructions some word decodes to. The field widths are in the
types; the one relation left is R143's: the words 0x00E0 and 0x00EE are CLS and RET, not SYS. -/

namespace Sys2Proof

/-- No word decodes to `SYS 0x0E0` or `SYS 0x0EE` (R103, R143); every other term is some word's decoding. -/
def Instr.wellFormed : Instr → Bool
  | .sys nnn => nnn != 0x0E0 && nnn != 0x0EE
  | .cls | .ret | .call _ | .jp _ => true
  | .seVxKk _ _ | .seVxVy _ _ | .sneVxKk _ _ | .sneVxVy _ _ => true
  | .ldVxKk _ _ | .ldVxVy _ _ | .ldINnn _ | .ldVxDt _ | .ldDtVx _ | .ldStVx _ => true
  | .ldIndVx _ | .ldVxInd _ => true
  | .addVxKk _ _ | .addVxVy _ _ | .addIVx _ => true
  | .orVxVy _ _ | .andVxVy _ _ | .xorVxVy _ _ | .subVxVy _ _ | .subnVxVy _ _ => true
  | .shrVxVy _ _ | .shlVxVy _ _ => true

end Sys2Proof
end

