-- ==== Sys2Proof/Decode.lean ====
section
/-! DEFINITION. The decoder: the catalogue of 27 mask/value definitions and the first-match scan over it
(spec/30_encoding.md R94 to R98), the direct nibble dispatch of R112, and the encoder (R92). Of the opcode
values only CLS, LD Vx,kk and ADD Vx,Vy are confirmed by the spec's source; the others are the spec's general
knowledge (D3, log 9), the masks its decision D4 and the order its decision D5 (log 10). -/

namespace Sys2Proof

/-! ## Operand fields (R91, R94) -/

/-- Mask of the field `x`, the low nibble of the first byte (R91). -/
def maskX : Word := 0x0F00
/-- Mask of the field `y`, the high nibble of the second byte (R91). -/
def maskY : Word := 0x00F0
/-- Mask of the field `kk`, the whole second byte (R91). -/
def maskKk : Word := 0x00FF
/-- Mask of the field `nnn`, the low 12 bits (R91). -/
def maskNnn : Word := 0x0FFF

/-- `x = (w & 0x0F00) >> 8` (R94). -/
def fieldX (w : Word) : RegIdx := ((w &&& maskX) >>> 8).setWidth 4
/-- `y = (w & 0x00F0) >> 4` (R94). -/
def fieldY (w : Word) : RegIdx := ((w &&& maskY) >>> 4).setWidth 4
/-- `kk = w & 0x00FF` (R94). -/
def fieldKk (w : Word) : Byte := (w &&& maskKk).setWidth 8
/-- `nnn = w & 0x0FFF` (R94). -/
def fieldNnn (w : Word) : Addr12 := (w &&& maskNnn).setWidth 12

/-- The operands of an instruction as unsigned numbers, in operand order (R92, R94). -/
def Instr.operands : Instr → List Nat
  | .cls => []
  | .ret => []
  | .call nnn => [nnn.toNat]
  | .sys nnn => [nnn.toNat]
  | .jp nnn => [nnn.toNat]
  | .seVxKk x kk => [x.toNat, kk.toNat]
  | .seVxVy x y => [x.toNat, y.toNat]
  | .sneVxKk x kk => [x.toNat, kk.toNat]
  | .sneVxVy x y => [x.toNat, y.toNat]
  | .ldVxKk x kk => [x.toNat, kk.toNat]
  | .ldVxVy x y => [x.toNat, y.toNat]
  | .ldINnn nnn => [nnn.toNat]
  | .ldVxDt x => [x.toNat]
  | .ldDtVx x => [x.toNat]
  | .ldStVx x => [x.toNat]
  | .ldIndVx x => [x.toNat]
  | .ldVxInd x => [x.toNat]
  | .addVxKk x kk => [x.toNat, kk.toNat]
  | .addVxVy x y => [x.toNat, y.toNat]
  | .addIVx x => [x.toNat]
  | .orVxVy x y => [x.toNat, y.toNat]
  | .andVxVy x y => [x.toNat, y.toNat]
  | .xorVxVy x y => [x.toNat, y.toNat]
  | .subVxVy x y => [x.toNat, y.toNat]
  | .subnVxVy x y => [x.toNat, y.toNat]
  | .shrVxVy x y => [x.toNat, y.toNat]
  | .shlVxVy x y => [x.toNat, y.toNat]

/-! ## The catalogue (R95, R96) -/

/-- An InstructionDefinition (R95): identity, Dump mnemonic, opcode-selecting mask and value, number of
operand fields, and four field masks, slot 0 the opcode mask and slots 1 to 3 the operand masks. -/
structure Definition where
  id         : OpId
  mnemonic   : String
  mask       : Word
  value      : Word
  nfields    : Nat
  fieldMasks : Vector Word 4
  deriving DecidableEq, Repr

/-- A definition from its columns: slot 0 is the opcode mask itself (R95). -/
def defn (id : OpId) (mnemonic : String) (mask value : Word) (nfields : Nat) (m1 m2 m3 : Word) : Definition :=
  { id, mnemonic, mask, value, nfields, fieldMasks := #v[mask, m1, m2, m3] }

/-- The operand masks in use: slots 1 to `nfields` (R95). -/
def Definition.operandMasks (d : Definition) : List Word := (d.fieldMasks.toList.drop 1).take d.nfields

/-- The catalogue's rows 1 to 9 (R140 to R148). -/
def catalogueControl : List Definition :=
  [defn .CLS "CLS" 0xFFFF 0x00E0 0 0 0 0,
   defn .RET "RET" 0xFFFF 0x00EE 0 0 0 0,
   defn .CALL "CALL" 0xF000 0x2000 1 maskNnn 0 0,
   defn .SYS "SYS" 0xF000 0x0000 1 maskNnn 0 0,
   defn .JP "JP" 0xF000 0x1000 1 maskNnn 0 0,
   defn .SE_VX_KK "SE" 0xF000 0x3000 2 maskX maskKk 0,
   defn .SE_VX_VY "SE" 0xF00F 0x5000 2 maskX maskY 0,
   defn .SNE_VX_KK "SNE" 0xF000 0x4000 2 maskX maskKk 0,
   defn .SNE_VX_VY "SNE" 0xF00F 0x9000 2 maskX maskY 0]

/-- The catalogue's rows 10 to 17 (R160 to R167). -/
def catalogueLoads : List Definition :=
  [defn .LD_VX_KK "LD" 0xF000 0x6000 2 maskX maskKk 0,
   defn .LD_VX_VY "LD" 0xF00F 0x8000 2 maskX maskY 0,
   defn .LD_I_NNN "LD" 0xF000 0xA000 1 maskNnn 0 0,
   defn .LD_VX_DT "LD" 0xF0FF 0xF007 1 maskX 0 0,
   defn .LD_DT_VX "LD" 0xF0FF 0xF015 1 maskX 0 0,
   defn .LD_ST_VX "LD" 0xF0FF 0xF018 1 maskX 0 0,
   defn .LD_IND_VX "LD" 0xF0FF 0xF055 1 maskX 0 0,
   defn .LD_VX_IND "LD" 0xF0FF 0xF065 1 maskX 0 0]

/-- The catalogue's rows 18 to 25 (R180 to R187). -/
def catalogueArith : List Definition :=
  [defn .ADD_VX_KK "ADD" 0xF000 0x7000 2 maskX maskKk 0,
   defn .ADD_VX_VY "ADD" 0xF00F 0x8004 2 maskX maskY 0,
   defn .ADD_I_VX "ADD" 0xF0FF 0xF01E 1 maskX 0 0,
   defn .OR "OR" 0xF00F 0x8001 2 maskX maskY 0,
   defn .AND "AND" 0xF00F 0x8002 2 maskX maskY 0,
   defn .XOR "XOR" 0xF00F 0x8003 2 maskX maskY 0,
   defn .SUB "SUB" 0xF00F 0x8005 2 maskX maskY 0,
   defn .SUBN "SUBN" 0xF00F 0x8007 2 maskX maskY 0]

/-- The catalogue's rows 26 and 27 (R200, R201). -/
def catalogueShifts : List Definition :=
  [defn .SHR "SHR" 0xF00F 0x8006 2 maskX maskY 0,
   defn .SHL "SHL" 0xF00F 0x800E 2 maskX maskY 0]

/-- The catalogue of R96, "a fixed, order-significant list": the 27 definitions in the spec's order. -/
def catalogue : List Definition := catalogueControl ++ catalogueLoads ++ catalogueArith ++ catalogueShifts

/-- Whether the opcode-selecting mask applied to the word equals the stored value (R97). -/
def Definition.matchesWord (d : Definition) (w : Word) : Bool := w &&& d.mask == d.value

/-- `Decode` of R97: the first definition of the catalogue that matches, in table order. -/
def decodeDef (w : Word) : Option Definition := catalogue.find? (·.matchesWord w)

/-! ## Decoding a word (R97, R98, R100) -/

/-- The decode error, "carrying the offending raw word" (R98). -/
structure DecodeError where
  word : Word
  deriving DecidableEq, Repr

/-- The instruction of an opcode identity with the operand fields of its format extracted from `w` (R92, R94). -/
def instrOf (id : OpId) (w : Word) : Instr :=
  match id with
  | .CLS => .cls
  | .RET => .ret
  | .CALL => .call (fieldNnn w)
  | .SYS => .sys (fieldNnn w)
  | .JP => .jp (fieldNnn w)
  | .SE_VX_KK => .seVxKk (fieldX w) (fieldKk w)
  | .SE_VX_VY => .seVxVy (fieldX w) (fieldY w)
  | .SNE_VX_KK => .sneVxKk (fieldX w) (fieldKk w)
  | .SNE_VX_VY => .sneVxVy (fieldX w) (fieldY w)
  | .LD_VX_KK => .ldVxKk (fieldX w) (fieldKk w)
  | .LD_VX_VY => .ldVxVy (fieldX w) (fieldY w)
  | .LD_I_NNN => .ldINnn (fieldNnn w)
  | .LD_VX_DT => .ldVxDt (fieldX w)
  | .LD_DT_VX => .ldDtVx (fieldX w)
  | .LD_ST_VX => .ldStVx (fieldX w)
  | .LD_IND_VX => .ldIndVx (fieldX w)
  | .LD_VX_IND => .ldVxInd (fieldX w)
  | .ADD_VX_KK => .addVxKk (fieldX w) (fieldKk w)
  | .ADD_VX_VY => .addVxVy (fieldX w) (fieldY w)
  | .ADD_I_VX => .addIVx (fieldX w)
  | .OR => .orVxVy (fieldX w) (fieldY w)
  | .AND => .andVxVy (fieldX w) (fieldY w)
  | .XOR => .xorVxVy (fieldX w) (fieldY w)
  | .SUB => .subVxVy (fieldX w) (fieldY w)
  | .SUBN => .subnVxVy (fieldX w) (fieldY w)
  | .SHR => .shrVxVy (fieldX w) (fieldY w)
  | .SHL => .shlVxVy (fieldX w) (fieldY w)

/-- The decoder on a raw word: the matching definition's instruction, or the decode error naming the word.
There is no fallback instruction (R98, C3). -/
def decode (w : Word) : Except DecodeError Instr :=
  match decodeDef w with
  | some d => .ok (instrOf d.id w)
  | none => .error ⟨w⟩

/-- `Make(w, addr)` of R100: the decoded instruction with its address tag. -/
def make (w : Word) (address : Nat) : Except DecodeError Instruction :=
  match decode w with
  | .ok i => .ok ⟨i, address⟩
  | .error e => .error e

/-- The word that two bytes of target memory hold, big-endian: `b0 * 256 + b1` (R67, R251). -/
def wordOfBytes (b0 b1 : Byte) : Word := b0 ++ b1

/-- Decoding the two bytes of a stored word (R67), first byte at the lower address. -/
def decodeBytes (b0 b1 : Byte) : Except DecodeError Instr := decode (wordOfBytes b0 b1)

/-! ## The direct dispatch of R112 -/

/-- R112's branch for leading nibble 8, by `w[3:0]`. -/
def dispatch8 (fn : BitVec 4) : Option OpId :=
  if fn = 0x0 then some .LD_VX_VY else if fn = 0x1 then some .OR else if fn = 0x2 then some .AND
  else if fn = 0x3 then some .XOR else if fn = 0x4 then some .ADD_VX_VY else if fn = 0x5 then some .SUB
  else if fn = 0x6 then some .SHR else if fn = 0x7 then some .SUBN else if fn = 0xE then some .SHL else none

/-- R112's branch for leading nibble F, by `w[7:0]`. -/
def dispatchF (fn : BitVec 8) : Option OpId :=
  if fn = 0x07 then some .LD_VX_DT else if fn = 0x15 then some .LD_DT_VX else if fn = 0x18 then some .LD_ST_VX
  else if fn = 0x1E then some .ADD_I_VX else if fn = 0x55 then some .LD_IND_VX
  else if fn = 0x65 then some .LD_VX_IND else none

/-- The decoder of R112, "written from the table alone": two whole words first, then the leading nibble. -/
def dispatchWord (w : Word) : Option OpId :=
  if w = 0x00E0 then some .CLS
  else if w = 0x00EE then some .RET
  else
    let op := w.extractLsb' 12 4
    let fn := w.extractLsb' 0 4
    if op = 0x0 then some .SYS
    else if op = 0x1 then some .JP
    else if op = 0x2 then some .CALL
    else if op = 0x3 then some .SE_VX_KK
    else if op = 0x4 then some .SNE_VX_KK
    else if op = 0x5 then (if fn = 0x0 then some .SE_VX_VY else none)
    else if op = 0x6 then some .LD_VX_KK
    else if op = 0x7 then some .ADD_VX_KK
    else if op = 0x8 then dispatch8 fn
    else if op = 0x9 then (if fn = 0x0 then some .SNE_VX_VY else none)
    else if op = 0xA then some .LD_I_NNN
    else if op = 0xF then dispatchF (w.extractLsb' 0 8)
    else none

/-! ## The encoder, from the formats of R92 and the values of R96 -/

/-- Format N: every bit fixed. -/
def formatN (w : Word) : Word := w
/-- Format A: `op nnn`. -/
def formatA (op : BitVec 4) (nnn : Addr12) : Word := op ++ nnn
/-- Format XK: `op x kk`. -/
def formatXK (op : BitVec 4) (x : RegIdx) (kk : Byte) : Word := op ++ x ++ kk
/-- Format XY: `op x y fn`. -/
def formatXY (op : BitVec 4) (x y : RegIdx) (fn : BitVec 4) : Word := op ++ x ++ y ++ fn
/-- Format X: `op x fn` with an 8-bit `fn`. -/
def formatX (op : BitVec 4) (x : RegIdx) (fn : BitVec 8) : Word := op ++ x ++ fn

/-- The word of a well-formed instruction (R92, R96). -/
def encode : Instr → Word
  | .cls => formatN 0x00E0
  | .ret => formatN 0x00EE
  | .call nnn => formatA 0x2 nnn
  | .sys nnn => formatA 0x0 nnn
  | .jp nnn => formatA 0x1 nnn
  | .seVxKk x kk => formatXK 0x3 x kk
  | .seVxVy x y => formatXY 0x5 x y 0x0
  | .sneVxKk x kk => formatXK 0x4 x kk
  | .sneVxVy x y => formatXY 0x9 x y 0x0
  | .ldVxKk x kk => formatXK 0x6 x kk
  | .ldVxVy x y => formatXY 0x8 x y 0x0
  | .ldINnn nnn => formatA 0xA nnn
  | .ldVxDt x => formatX 0xF x 0x07
  | .ldDtVx x => formatX 0xF x 0x15
  | .ldStVx x => formatX 0xF x 0x18
  | .ldIndVx x => formatX 0xF x 0x55
  | .ldVxInd x => formatX 0xF x 0x65
  | .addVxKk x kk => formatXK 0x7 x kk
  | .addVxVy x y => formatXY 0x8 x y 0x4
  | .addIVx x => formatX 0xF x 0x1E
  | .orVxVy x y => formatXY 0x8 x y 0x1
  | .andVxVy x y => formatXY 0x8 x y 0x2
  | .xorVxVy x y => formatXY 0x8 x y 0x3
  | .subVxVy x y => formatXY 0x8 x y 0x5
  | .subnVxVy x y => formatXY 0x8 x y 0x7
  | .shrVxVy x y => formatXY 0x8 x y 0x6
  | .shlVxVy x y => formatXY 0x8 x y 0xE

/-- The two bytes of an instruction as stored in target memory, high byte first (R67). -/
def encodeBytes (i : Instr) : List Byte := [(encode i).extractLsb' 8 8, (encode i).extractLsb' 0 8]

/-! ## The host's table decoder -/

/-- What the decoder reads from an instruction of `nbits` bits `w`, numbered as spec/opcode_table.json numbers
them: every instruction is one 16-bit word (R90), so a longer row is none and the bits above `nbits` are 0. -/
def decodeTableWord (nbits w : Nat) : Option Instr :=
  if nbits ≤ 16 ∧ w < 2 ^ nbits then
    match decode (BitVec.ofNat 16 w) with
    | .ok i => some i
    | .error _ => none
  else none

end Sys2Proof
end

