-- ==== Sys2Proof/Machine/State.lean ====
section
/-! DEFINITION. The machine's state as plain data: R20's tuple, and beside it the values last
written to the timers (R220) and, in `env`, the parameters the spec gives to the agents outside the core
(spec/10_state.md, spec/92_eei_decisions.md). The reasons a step can stop, and the state after reset (R40 to R42,
R250). -/

namespace Sys2Proof.Machine

/-- Memory as (address, byte) pairs, addresses strictly rising, no pair holding 0: an unlisted address reads
as 0, its reset contents (R40, log 5). -/
abbrev Memory := List Host.Cell

/-- The opcodes whose Execute raises `Unimplemented` (R210, R213). -/
inductive UnimplementedOp where
  | ret | call | sys
  deriving DecidableEq, Repr

/-- The three error kinds of the core with what each carries (R210). -/
inductive CoreError where
  /-- `DecodeError(w)`: "no catalogue entry matches a raw word"; carries the offending word (R98, R211). -/
  | decodeError (w : Word)
  /-- `AddressRange(a)`: an access outside `[512, 4096)`; carries the offending address (R212). -/
  | addressRange (a : Nat)
  /-- `Unimplemented(op)`: Execute of RET, CALL or SYS; carries the opcode identity (R213). -/
  | unimplemented (op : UnimplementedOp)
  deriving DecidableEq, Repr

/-- Which sequencer presents words to the core: the OPEN parameter `SEQ` (R252, D7). -/
inductive SeqKind where
  /-- `SEQ-W`, the reference: PC is a word-slot number (R253). -/
  | wordSlot
  /-- `SEQ-STREAM`: words run in list order, whatever PC holds (R254). -/
  | stream
  deriving DecidableEq, Repr

/-- The sequencer's own data (R252 to R254). `cursor` counts the words SEQ-STREAM has presented. -/
structure Sequencer where
  kind   : SeqKind
  words  : List Word
  entry  : Word
  base   : Nat
  cursor : Nat
  deriving DecidableEq, Repr

/-- The external timer agent, the OPEN parameter `TIMER_AGENT` (R220, D17, log 6): absent, or present with
the number of draws it has made. -/
inductive TimerAgent where
  | absent
  | present (draws : Nat)
  deriving DecidableEq, Repr

/-- What the host does with one kind of error (R217): end the run, or carry on with the state the error left. -/
inductive Reaction where
  | endRun
  | carryOn
  deriving DecidableEq, Repr

/-- The OPEN parameter `ERROR_POLICY`: the host's reaction to each of the three kinds (R217, D13, log 7). -/
structure ErrorPolicy where
  onDecodeError   : Reaction
  onAddressRange  : Reaction
  onUnimplemented : Reaction
  deriving DecidableEq, Repr

/-- The agents outside the core, as data (R10): the sequencer, the timer agent, the host's error policy and the
errors the host received and carried on from, newest first (R226 (d), R33). No Execute rule touches any of it. -/
structure Surroundings where
  seq    : Sequencer
  timer  : TimerAgent
  policy : ErrorPolicy
  errors : List CoreError
  deriving DecidableEq, Repr

/-- The machine state: the fields `v` to `mem` are exactly R20's tuple; `dtTop`, `stTop` and `env` are the model's own
(log 1, 6, 7). -/
structure State where
  /-- V0..VF (R21); `v[15]` is VF (R24, R25). -/
  v   : Vector Byte 16
  /-- I, the address register (R34, R35). -/
  i   : Word
  /-- PC (R27). -/
  pc  : Word
  /-- SP, host only (R32). -/
  sp  : Byte
  /-- DT (R30). -/
  dt  : Byte
  /-- ST (R31). -/
  st  : Byte
  /-- Mem[0..4095] (R36). -/
  mem : Memory
  /-- The value last written to DT by the program or the host: what a timer agent's draw is bounded by (R220, log 6). -/
  dtTop : Byte
  /-- The value last written to ST by the program or the host (R220, log 6). -/
  stTop : Byte
  /-- The agents outside the core. -/
  env : Surroundings
  deriving DecidableEq, Repr

/-- The register values after reset: the OPEN parameters `RESET_REGS` (R41, D15) and `ENTRY` (R42, D16). -/
structure ResetRegs where
  v  : Vector Byte 16
  i  : Word
  pc : Word
  sp : Byte
  dt : Byte
  st : Byte
  deriving DecidableEq, Repr

/-- The values this model names where the spec states none. DESIGN CHOICE: zero (log 2), PC at the reference
ENTRY (log 3). Unsafe: R41 says a model must not assume zero; no statement rests on these values. -/
def ResetRegs.named : ResetRegs :=
  { v := Vector.replicate 16 0, i := 0, pc := Config.entry, sp := 0, dt := 0, st := 0 }

/-- The surroundings at reset: no program loaded, the reference choice for every open parameter
(DESIGN CHOICE, log 1, 4, 6, 7). -/
def Surroundings.reference : Surroundings :=
  { seq := { kind := .wordSlot, words := [], entry := Config.entry, base := Config.base, cursor := 0 }
    timer := .absent
    policy := { onDecodeError := .endRun, onAddressRange := .endRun, onUnimplemented := .endRun }
    errors := [] }

/-- Construction of the machine state for ANY register values (R250): memory is all zero (R40), registers as the
parameter `RESET_REGS` gives them; until something is written to a timer, its reset value bounds the draws (log 6). -/
def State.construct (r : ResetRegs) : State :=
  { v := r.v, i := r.i, pc := r.pc, sp := r.sp, dt := r.dt, st := r.st, mem := [],
    dtTop := r.dt, stTop := r.st, env := .reference }

/-- The machine right after reset, with the register values the log names (log 2, 3). -/
def State.reset : State := State.construct .named

/-- Why the machine stops. The payload is the value handed to the host and the machine state at that moment
(R215, R216), so nothing of the partial effects of a failing block transfer is lost. -/
inductive Fault where
  /-- An error of the core, propagated to the host (R215). Raised by Execute of RET, CALL, SYS, of LD [I],Vx and
  LD Vx,[I], and by a word that does not decode. Under the reference ERROR_POLICY it ends the run (R217).
  Safe: the spec itself makes it the outcome. -/
  | raised (error : CoreError) (after : State)
  /-- The normal end of a run (R255 (a)): the sequencer selects no word. Raised by `step` alone. It is no error of
  the core. Safe (log 8). -/
  | runEnded (final : State)
  deriving DecidableEq, Repr

/-- Reasons for a missing meaning. -/
inductive Refusal where
  /-- An instruction with no meaning yet: raised by no arm of this model. Safe. -/
  | notModelled (mnemonic : String)
  deriving DecidableEq, Repr

/-- The outcome of an operation on the machine (R8). -/
abbrev Result := Host.Outcome State Fault Refusal

end Sys2Proof.Machine
end

