-- ==== Sys2Proof/Machine/Ops.lean ====
section
/-! DEFINITION. The named operations over registers and memory: the byte cells in canonical form, the
bounds-checked controller (spec/20_memory.md R60 to R65), the register accessors (spec/00_scope.md R7), and the
one way an error leaves an instruction (spec/60_exceptions.md R215). -/

namespace Sys2Proof.Machine

/-! ## Memory cells -/

/-- The byte in a cell: an unlisted address reads as its reset value 0 (R40, R73 (3)). -/
def Memory.get : Memory → Nat → Byte
  | [], _ => 0
  | c :: m, a => if c.1 = a then c.2 else Memory.get m a

/-- A pair list with the cell `a` put to `v` at its place; the value 0 is not listed. -/
def Memory.put (a : Nat) (v : Byte) (m : Memory) : Memory := if v = 0 then m else (a, v) :: m

/-- Writing one cell, keeping addresses rising and zeros unlisted. -/
def Memory.set : Memory → Nat → Byte → Memory
  | [], a, v => Memory.put a v []
  | c :: m, a, v =>
    if a < c.1 then Memory.put a v (c :: m)
    else if a = c.1 then Memory.put a v m
    else c :: Memory.set m a v

/-- The canonical form: addresses strictly rising, no entry equal to what an unlisted address reads as. -/
abbrev Memory.wf (m : Memory) : Prop :=
  m.Pairwise (fun c d => c.1 < d.1) ∧ ∀ c ∈ m, c.2 ≠ 0

/-! ## The memory controller -/

/-- `IsValidAddress` (R61, R64): the address lies in `[threshold, N)`. Addresses are natural numbers (D11). -/
def isValidAddress (a : Nat) : Bool := Config.memThreshold ≤ a && a < Config.memSize

/-- `MemRead(addr, 1)` (R62). -/
def State.memRead (s : State) (a : Nat) : Except CoreError Byte :=
  if isValidAddress a then .ok (s.mem.get a) else .error (.addressRange a)

/-- The memory replaced. -/
def State.setMem (s : State) (m : Memory) : State := { s with mem := m }

/-- `MemWrite(addr, 1, v)` (R63). -/
def State.memWrite (s : State) (a : Nat) (b : Byte) : Except CoreError State :=
  if isValidAddress a then .ok (s.setMem (s.mem.set a b)) else .error (.addressRange a)

/-! ## Registers -/

/-- `V[x]` (R7). -/
def State.readV (s : State) (x : RegIdx) : Byte := s.v[x.toFin]

/-- `V[x] <- b` (R7, R22): a byte is already reduced modulo 256. -/
def State.writeV (s : State) (x : RegIdx) (b : Byte) : State := { s with v := s.v.set x.toFin b }

/-- The index of VF, the flag location (R25). -/
def vf : RegIdx := 15

/-- `I <- w` (R7). -/
def State.setI (s : State) (w : Word) : State := { s with i := w }
/-- `pc <- w` (R7). -/
def State.setPc (s : State) (w : Word) : State := { s with pc := w }
/-- `SP <- b` (R7); only the host writes SP (R32). -/
def State.setSp (s : State) (b : Byte) : State := { s with sp := b }
/-- `DT <- b` (R7), by the program or the host: `b` is from now on what a draw of DT is bounded by (R220, log 6). -/
def State.setDt (s : State) (b : Byte) : State := { s with dt := b, dtTop := b }
/-- `ST <- b` (R7), by the program or the host: `b` is from now on what a draw of ST is bounded by (R220, log 6). -/
def State.setSt (s : State) (b : Byte) : State := { s with st := b, stTop := b }
/-- What the timer agent leaves in DT and ST; the values last written by the program or the host stay known (R220). -/
def State.tick (s : State) (d t : Byte) : State := { s with dt := d, st := t }
/-- The surroundings replaced; no Execute rule uses it. -/
def State.setEnv (s : State) (e : Surroundings) : State := { s with env := e }

/-- `pc <- PC + 1`, modulo 65536 (R28, R29, D8): the effect of a satisfied skip, one word-slot and not two bytes. -/
def State.skip (s : State) : State := s.setPc (s.pc + 1)

/-- The skip of SE and SNE: taken when the condition holds, PC unchanged otherwise (R145 to R148). -/
def State.skipIf (s : State) (cond : Bool) : State := if cond then s.skip else s

/-! ## Taking an error -/

/-- Taking an exception on this hardware: the operation ends and the error value goes to the host. Nothing is
saved, no register is written, PC is not redirected (R215); the state is as the instruction left it (R216). There
is no return from it (R217). -/
def raise (e : CoreError) (s : State) : Result := .fault (.raised e s)

/-- The numeric code of an outcome, where a model needs a number (R210, D14): 0 ok, then the three kinds. -/
def CoreError.code : CoreError → Nat
  | .decodeError _ => 1
  | .addressRange _ => 2
  | .unimplemented _ => 3

/-- The opcode identity an `Unimplemented` error carries (R210). -/
def UnimplementedOp.id : UnimplementedOp → OpId
  | .ret => .RET
  | .call => .CALL
  | .sys => .SYS

end Sys2Proof.Machine
end

