-- ==== Sys2Proof/Machine/Flags.lean ====
section
/-! DEFINITION. The 8-bit ALU and shift unit as functions of latched operands (spec/42_arithmetic_logic.md R188,
R190, spec/43_shift.md R202), and the write order of flag and result (R189). -/

namespace Sys2Proof.Machine

/-- A result and the flag that goes with it. -/
structure AluOut where
  value : Byte
  flag  : Byte
  deriving DecidableEq, Repr

/-- A flag is always 0 or 1 (R25). -/
def flagOf (p : Bool) : Byte := if p then 1 else 0

/-- `add(a,b)`: `(a + b) mod 256`, carry iff the sum exceeds 255 (R190, R181). -/
def aluAdd (a b : Byte) : AluOut := { value := a + b, flag := flagOf (a.toNat + b.toNat > 255) }

/-- `sub(a,b)`: `(a - b) mod 256`, flag iff `a > b`, strictly (R190, R186, C8). -/
def aluSub (a b : Byte) : AluOut := { value := a - b, flag := flagOf (a.toNat > b.toNat) }

/-- `subn(a,b)`: the SAME difference `(a - b) mod 256`, flag iff `a < b` (R190, R187, C5, log 14). -/
def aluSubn (a b : Byte) : AluOut := { value := a - b, flag := flagOf (a.toNat < b.toNat) }

/-- `shr(a)`: logical shift by one, flag the bit shifted out at the bottom (R190, R200). -/
def aluShr (a : Byte) : AluOut := { value := a >>> 1, flag := a &&& 1 }

/-- `shl(a)`: shift by one modulo 256, flag the bit shifted out at the top (R190, R201). -/
def aluShl (a : Byte) : AluOut := { value := a <<< 1, flag := (a >>> 7) &&& 1 }

/-- Steps 3 and 4 of R189: the flag to VF, then the result to Vx, so for `x = 15` the result overwrites the flag
(D9, log 11). The output is computed from operands latched before either write. -/
def State.writeFlagged (s : State) (x : RegIdx) (r : AluOut) : State := (s.writeV vf r.flag).writeV x r.value

end Sys2Proof.Machine
end

