-- ==== Sys2Proof/Machine/Operands.lean ====
section
/-! DEFINITION. How operand fields become values and addresses: zero extension (spec/00_scope.md R7,
spec/30_encoding.md R94) and the one addressing mode, base I plus index (spec/20_memory.md R78,
spec/41_load_store.md R168). -/

namespace Sys2Proof.Machine

/-- `zext_16(nnn)` (R7, R94): the 12-bit operand as a 16-bit number. -/
def zextAddr (nnn : Addr12) : Word := nnn.setWidth 16

/-- `zext_16(v)`: a byte added to I is unsigned (R182). -/
def zextByte (b : Byte) : Word := b.setWidth 16

/-- `nnn & 0x0FFF`, what LD I,nnn loads (R162, R34). -/
def maskedAddr (nnn : Addr12) : Word := zextAddr nnn &&& 0x0FFF

/-- The effective address `I + j` of the byte of register `j` in a block transfer: a natural number, not wrapped
(R78, D11). -/
def State.blockAddr (s : State) (j : RegIdx) : Nat := s.i.toNat + j.toNat

/-- The indices `0..=x` of a block transfer in ascending order (R166, R167, R7). -/
def blockIndices (x : RegIdx) : List RegIdx := (List.range (x.toNat + 1)).map (BitVec.ofNat 4)

end Sys2Proof.Machine
end

