-- ==== Sys2Proof/Machine/Arithmetic.lean ====
section
/-! DEFINITION. ADD, OR, AND, XOR, SUB, SUBN (spec/42_arithmetic_logic.md R180 to R190). Every meaning reads its
operands from the state before any write (R189). -/

namespace Sys2Proof.Machine

/-- ADD Vx,kk (R180): modulo 256, "no flag effect". -/
def execAddVxKk (x : RegIdx) (kk : Byte) (s : State) : Result := .next (s.writeV x (aluAdd (s.readV x) kk).value)

/-- ADD Vx,Vy (R181): VF is the carry. -/
def execAddVxVy (x y : RegIdx) (s : State) : Result := .next (s.writeFlagged x (aluAdd (s.readV x) (s.readV y)))

/-- ADD I,Vx (R182): modulo 65536, no 12-bit mask, no flag (D10, log 13). -/
def execAddIVx (x : RegIdx) (s : State) : Result := .next (s.setI (s.i + zextByte (s.readV x)))

/-- OR Vx,Vy (R183): no flag. -/
def execOrVxVy (x y : RegIdx) (s : State) : Result := .next (s.writeV x (s.readV x ||| s.readV y))

/-- AND Vx,Vy (R184): no flag. -/
def execAndVxVy (x y : RegIdx) (s : State) : Result := .next (s.writeV x (s.readV x &&& s.readV y))

/-- XOR Vx,Vy (R185): no flag. -/
def execXorVxVy (x y : RegIdx) (s : State) : Result := .next (s.writeV x (s.readV x ^^^ s.readV y))

/-- SUB Vx,Vy (R186): VF is `Vx > Vy`. -/
def execSubVxVy (x y : RegIdx) (s : State) : Result := .next (s.writeFlagged x (aluSub (s.readV x) (s.readV y)))

/-- SUBN Vx,Vy (R187): VF is `Vx < Vy`, the result is `Vx - Vy` and NOT `Vy - Vx` (C5, D24, log 14). -/
def execSubnVxVy (x y : RegIdx) (s : State) : Result := .next (s.writeFlagged x (aluSubn (s.readV x) (s.readV y)))

end Sys2Proof.Machine
end

