-- ==== Sys2Proof/Machine/ControlFlow.lean ====
section
/-! DEFINITION. CLS, RET, CALL, SYS, JP and the four skips (spec/40_control_flow.md R140 to R149). -/

namespace Sys2Proof.Machine

/-- CLS (R140): "no machine-state effect in this core". -/
def execCls (s : State) : Result := .next s

/-- RET (R141): raises `Unimplemented(RET)`, state unchanged. -/
def execRet (s : State) : Result := raise (.unimplemented .ret) s

/-- CALL nnn (R142): raises `Unimplemented(CALL)` for every `nnn`, state unchanged. -/
def execCall (_nnn : Addr12) (s : State) : Result := raise (.unimplemented .call) s

/-- SYS nnn (R143): raises `Unimplemented(SYS)` for every `nnn`, state unchanged. -/
def execSys (_nnn : Addr12) (s : State) : Result := raise (.unimplemented .sys) s

/-- JP nnn (R144): `pc <- zext_16(nnn)`, no check of window or alignment. -/
def execJp (nnn : Addr12) (s : State) : Result := .next (s.setPc (zextAddr nnn))

/-- SE Vx,kk (R145): skip if `V[x] = kk`. -/
def execSeVxKk (x : RegIdx) (kk : Byte) (s : State) : Result := .next (s.skipIf (s.readV x == kk))

/-- SE Vx,Vy (R146): skip if `V[x] = V[y]`. -/
def execSeVxVy (x y : RegIdx) (s : State) : Result := .next (s.skipIf (s.readV x == s.readV y))

/-- SNE Vx,kk (R147): skip if `V[x] ≠ kk`. -/
def execSneVxKk (x : RegIdx) (kk : Byte) (s : State) : Result := .next (s.skipIf (s.readV x != kk))

/-- SNE Vx,Vy (R148): skip if `V[x] ≠ V[y]`. -/
def execSneVxVy (x y : RegIdx) (s : State) : Result := .next (s.skipIf (s.readV x != s.readV y))

end Sys2Proof.Machine
end

