-- ==== Sys2Proof/Machine/LoadStore.lean ====
section
/-! DEFINITION. The eight LD forms (spec/41_load_store.md R160 to R168). -/

namespace Sys2Proof.Machine

/-- LD Vx,kk (R160): `V[x] <- kk`. -/
def execLdVxKk (x : RegIdx) (kk : Byte) (s : State) : Result := .next (s.writeV x kk)

/-- LD Vx,Vy (R161): `V[x] <- V[y]`. -/
def execLdVxVy (x y : RegIdx) (s : State) : Result := .next (s.writeV x (s.readV y))

/-- LD I,nnn (R162): `I <- nnn & 0x0FFF`, not checked against the window. -/
def execLdINnn (nnn : Addr12) (s : State) : Result := .next (s.setI (maskedAddr nnn))

/-- LD Vx,DT (R163): `V[x] <- DT`. -/
def execLdVxDt (x : RegIdx) (s : State) : Result := .next (s.writeV x s.dt)

/-- LD DT,Vx (R164): `DT <- V[x]`. -/
def execLdDtVx (x : RegIdx) (s : State) : Result := .next (s.setDt (s.readV x))

/-- LD ST,Vx (R165): `ST <- V[x]`. -/
def execLdStVx (x : RegIdx) (s : State) : Result := .next (s.setSt (s.readV x))

/-- The byte stores of R166 for the given indices, in order, each through the checked controller: the first
invalid address raises and ends the instruction, and the bytes already written stay (D12, log 12). -/
def storeBlock : List RegIdx → State → Result
  | [], s => .next s
  | j :: js, s =>
    match s.memWrite (s.blockAddr j) (s.readV j) with
    | .error e => raise e s
    | .ok s' => storeBlock js s'

/-- The byte loads of R167 for the given indices, in order: the first invalid address raises, and the registers
already loaded keep their new values (D12, log 12). -/
def loadBlock : List RegIdx → State → Result
  | [], s => .next s
  | j :: js, s =>
    match s.memRead (s.blockAddr j) with
    | .error e => raise e s
    | .ok b => loadBlock js (s.writeV j b)

/-- LD [I],Vx (R166): store V0..Vx at I, I unchanged. -/
def execLdIndVx (x : RegIdx) (s : State) : Result := storeBlock (blockIndices x) s

/-- LD Vx,[I] (R167): load V0..Vx from I, I unchanged. -/
def execLdVxInd (x : RegIdx) (s : State) : Result := loadBlock (blockIndices x) s

end Sys2Proof.Machine
end

