-- ==== Sys2Proof/Machine/Shift.lean ====
section
/-! DEFINITION. SHR and SHL (spec/43_shift.md R200 to R202): by exactly one bit, Vx in place, Vy unused. -/

namespace Sys2Proof.Machine

/-- SHR Vx,Vy (R200). -/
def execShrVxVy (x _y : RegIdx) (s : State) : Result := .next (s.writeFlagged x (aluShr (s.readV x)))

/-- SHL Vx,Vy (R201). -/
def execShlVxVy (x _y : RegIdx) (s : State) : Result := .next (s.writeFlagged x (aluShl (s.readV x)))

end Sys2Proof.Machine
end

