-- ==== Sys2Proof/Machine/Sequencer.lean ====
section
/-! DEFINITION. The agents outside the core that `step` needs: the sequencers SEQ-W and SEQ-STREAM
(spec/70_reset_and_hazards.md R252 to R255), the timer agent (spec/60_exceptions.md R220), the port
`step(word, address)` of the core (spec/00_scope.md R11) and the host's ERROR_POLICY (R217). -/

namespace Sys2Proof.Machine

/-! ## The sequencer -/

/-- The slot of the word list the sequencer looks at: `(PC - ENTRY) mod 65536` under SEQ-W (R253), the number of
words already presented under SEQ-STREAM (R254). -/
def State.slot (s : State) : Nat :=
  match s.env.seq.kind with
  | .wordSlot => (s.pc - s.env.seq.entry).toNat
  | .stream => s.env.seq.cursor

/-- `next(state)` of R252: the word of the slot and its address tag `BASE + 2*k`, or `none` for `End`. -/
def State.nextWord (s : State) : Option (Word × Nat) :=
  match s.env.seq.words[s.slot]? with
  | some w => some (w, s.env.seq.base + 2 * s.slot)
  | none => none

/-- `advance` of R252, applied once per fetch, before Execute: `(p + 1) mod 65536` under SEQ-W (R253); under
SEQ-STREAM the identity on PC, and the next word of the list is the one after (R254). -/
def State.advance (s : State) : State :=
  match s.env.seq.kind with
  | .wordSlot => s.setPc (s.pc + 1)
  | .stream => s.setEnv { s.env with seq := { s.env.seq with cursor := s.env.seq.cursor + 1 } }

/-- The word list with slot `k` holding `w`. A list too short is filled up with zero words (log 19). -/
def putWord : List Word → Nat → Word → List Word
  | [], 0, w => [w]
  | [], k + 1, w => 0 :: putWord [] k w
  | _ :: ws, 0, w => w :: ws
  | v :: ws, k + 1, w => v :: putWord ws k w

/-! ## The timer agent -/

/-- The draw `d` with `0 ≤ d ≤ v` (R220) that a free byte stands for: each such `d` is the draw of some byte, `d` itself. -/
def drawUpTo (free v : Byte) : Byte := BitVec.ofNat 8 (free.toNat % (v.toNat + 1))

/-- What the timer agent does between two instructions: nothing if absent (the reference, R220, D17); if present,
DT and ST are each replaced by a draw of their own (whether they tick together is open), not above the value last
written by the program or the host, whatever earlier draws were (R220, log 6). When it acts among the agents between two
instructions is the model's choice (log 23). -/
def State.timerActs (s : State) : State :=
  match s.env.timer with
  | .absent => s
  | .present n =>
    (s.tick (drawUpTo (Config.timerDraw n) s.dtTop) (drawUpTo (Config.timerDraw (n + 1)) s.stTop)).setEnv
      { s.env with timer := .present (n + 2) }

/-! ## The core's step port and the host's error policy -/

/-- `step(word, address) = execute(make(decode(word), address))` (R11). A word that does not decode raises
`DecodeError(w)` before anything executes (R211, R214). -/
def present (w : Word) (address : Nat) (s : State) : Result :=
  match make w address with
  | .ok ins => exec ins.instr s
  | .error e => raise (.decodeError e.word) s

/-- The host's reaction to an error of a kind (R217). -/
def ErrorPolicy.reaction (p : ErrorPolicy) : CoreError → Reaction
  | .decodeError _ => p.onDecodeError
  | .addressRange _ => p.onAddressRange
  | .unimplemented _ => p.onUnimplemented

/-- The host receives an error it carries on from: it notes it, and the run goes on with the state the error left
(R216, R217, R226 (d), log 7). -/
def State.noteError (s : State) (e : CoreError) : State := s.setEnv { s.env with errors := e :: s.env.errors }

/-- ERROR_POLICY applied to an outcome of the core: `endRun` leaves the error as the run's end, `carryOn` makes the
step a next step (R217). Under the reference policy nothing changes. -/
def settle (p : ErrorPolicy) (o : Result) : Result :=
  match o with
  | .fault (.raised e s) =>
    match p.reaction e with
    | .endRun => raise e s
    | .carryOn => .next (s.noteError e)
  | .fault (.runEnded s) => .fault (.runEnded s)
  | .next s => .next s
  | .refused r => .refused r

/-- One step of a run (R252), the timer agent having acted in between: no word selected ends the run (R255 (a));
otherwise PC advances and the core runs the word. -/
def runStep (s : State) : Result :=
  match s.nextWord with
  | none => .fault (.runEnded s)
  | some (w, address) => settle s.env.policy (present w address s.advance)

end Sys2Proof.Machine
end

