-- ==== Sys2Proof/Machine/Step.lean ====
section
/-! DEFINITION. One step of the machine with the agents around it, and the placing of one word for the next
fetch (spec/70_reset_and_hazards.md R252, R253). -/

namespace Sys2Proof.Machine

/-- One step: the timer agent acts (if present), then the sequencer presents the next word to the core. DESIGN CHOICE (log
23): of the instants between two instructions, which R10 leaves open, the timer agent takes the last one, before the fetch. -/
def step (s : State) : Host.Outcome State Fault Refusal := runStep s.timerActs

/-- `s` with the word `w` in the slot of the sequencer's word list that the next step presents. -/
def State.withFetchWord (s : State) (nbits w : Nat) : State :=
  s.setEnv { s.env with seq :=
    { s.env.seq with words := putWord s.env.seq.words s.slot (BitVec.ofNat 16 (w % 2 ^ nbits)) } }

end Sys2Proof.Machine
end

