-- ==== Sys2Proof/Machine/Ports.lean ====
section
/-! DEFINITION. The host's ports (spec/00_scope.md R11): register accessors (spec/10_state.md R38, R39), memory
ports with the core's own guard (spec/20_memory.md R62 to R65), placing an image (R67, R80) and booting
(spec/70_reset_and_hazards.md R250, R251). The host uses them between steps only (R10, R226). -/

namespace Sys2Proof.Machine

/-- The names of the 8-bit accessor: exactly nineteen cells (R38). I and PC are not among them, so the
programming-contract violation cannot be expressed (R225, D19, log 18). -/
inductive Reg8 where
  | v (x : RegIdx)
  | dt
  | st
  | sp
  deriving DecidableEq, Repr

/-- The names of the 16-bit accessor (R39). -/
inductive Reg16 where
  | i
  | pc
  deriving DecidableEq, Repr

/-- Reading through `reg8` (R38). -/
def State.reg8Read (s : State) : Reg8 → Byte
  | .v x => s.readV x
  | .dt => s.dt
  | .st => s.st
  | .sp => s.sp

/-- Writing through `reg8`: the number is stored modulo 256 (R22, R38). -/
def State.reg8Write (s : State) (r : Reg8) (n : Nat) : State :=
  match r with
  | .v x => s.writeV x (BitVec.ofNat 8 n)
  | .dt => s.setDt (BitVec.ofNat 8 n)
  | .st => s.setSt (BitVec.ofNat 8 n)
  | .sp => s.setSp (BitVec.ofNat 8 n)

/-- Reading through `reg16` (R39). -/
def State.reg16Read (s : State) : Reg16 → Word
  | .i => s.i
  | .pc => s.pc

/-- Writing through `reg16`: modulo 65536, I not masked to 12 bits (R39). -/
def State.reg16Write (s : State) (r : Reg16) (n : Nat) : State :=
  match r with
  | .i => s.setI (BitVec.ofNat 16 n)
  | .pc => s.setPc (BitVec.ofNat 16 n)

/-- `mem_valid(addr)` (R11, R64). -/
def memValid (a : Nat) : Bool := isValidAddress a

/-- `mem_read(addr)`: the core's own `Read`, guard and all (R62, R65). -/
def State.hostRead (s : State) (a : Nat) : Except CoreError Byte := s.memRead a

/-- `mem_write(addr, v)`: the core's own `Write`; the number is stored modulo 256 (R63, R65). -/
def State.hostWrite (s : State) (a n : Nat) : Except CoreError State := s.memWrite a (BitVec.ofNat 8 n)

/-- The bytes of a program image, each word high byte first (R67). -/
def imageBytes : List Word → List Byte
  | [] => []
  | w :: ws => w.extractLsb' 8 8 :: w.extractLsb' 0 8 :: imageBytes ws

/-- The host writing bytes from an address up through `mem_write`; the first invalid address raises
`AddressRange` (R65, R251 (3)). -/
def placeBytes : Nat → List Byte → State → Result
  | _, [], s => .next s
  | a, b :: bs, s =>
    match s.memWrite a b with
    | .error e => raise e s
    | .ok s' => placeBytes (a + 1) bs s'

/-- Placing a program image in memory at `base`: word `i` at `base + 2*i` and `base + 2*i + 1` (R67, R80). It has no
effect on what executes (R76). -/
def loadImage (base : Nat) (words : List Word) (s : State) : Result := placeBytes base (imageBytes words) s

/-! ## The host between steps -/

/-- What the host may do to the machine between two instructions under R226 (b): write a register, read or write a
byte. Reading a register has no effect and cannot fail. -/
inductive HostAct where
  | reg8 (r : Reg8) (n : Nat)
  | reg16 (r : Reg16) (n : Nat)
  | memRead (a : Nat)
  | memWrite (a n : Nat)
  deriving DecidableEq, Repr

/-- One act of the host: a memory port raises `AddressRange` for it as for an instruction (R62, R63, R65, R212). -/
def State.hostAct (s : State) : HostAct → Result
  | .reg8 r n => .next (s.reg8Write r n)
  | .reg16 r n => .next (s.reg16Write r n)
  | .memRead a =>
    match s.hostRead a with
    | .ok _ => .next s
    | .error e => raise e s
  | .memWrite a n =>
    match s.hostWrite a n with
    | .ok t => .next t
    | .error e => raise e s

/-- The host's acts between two steps, in order; it receives every error, its own too, under its policy (R217,
R226 (d), log 16). -/
def hostTurn : List HostAct → State → Result
  | [], s => .next s
  | act :: acts, s =>
    match settle s.env.policy (s.hostAct act) with
    | .next t => hostTurn acts t
    | .fault f => .fault f
    | .refused r => .refused r

/-- A run in which the host acts: before each step its turn, one step for each turn. A schedule of empty turns is the
run of R226's premise, the host doing nothing. DESIGN CHOICE (log 23): the spec orders neither the host's acts nor the
timer agent's between two steps (R10); here the host's turn comes first, and the timer agent acts after it, within `step`. -/
def runHosted : List (List HostAct) → State → Result
  | [], s => .next s
  | turn :: turns, s =>
    match hostTurn turn s with
    | .next t =>
      match step t with
      | .next u => runHosted turns u
      | .fault f => .fault f
      | .refused r => .refused r
    | .fault f => .fault f
    | .refused r => .refused r

/-! ## Boot -/

/-- Boot (R251): the state constructed with the registers the host writes, PC at ENTRY, and the sequencer given its
kind, word list and BASE. -/
def boot (r : ResetRegs) (kind : SeqKind) (words : List Word) (base : Nat) : State :=
  (State.construct r).setEnv { Surroundings.reference with
    seq := { kind, words, entry := r.pc, base, cursor := 0 } }

end Sys2Proof.Machine
end

