-- ==== Sys2Proof/Machine/Text.lean ====
section
/-! DEFINITION. The text syntax: Dump and the disassembler (spec/30_encoding.md R105 to R110). Pure functions of the
Instruction value; no machine state. Spellings the spec's source does not show are its decision D21 (log 17). -/

namespace Sys2Proof.Machine

/-- `hex(v)`: `0x`, then lower-case digits without leading zeros; `0x0` for 0 (R106). -/
def hex (n : Nat) : String := "0x" ++ String.ofList (Nat.toDigits 16 n)

/-- The name of a general register after its `V`: one upper-case hexadecimal digit (R107, D21). -/
def regDigit (x : RegIdx) : Char := (Nat.digitChar x.toNat).toUpper

/-- `reg(i)` (R107). -/
def reg (x : RegIdx) : String := "V" ++ String.ofList [regDigit x]

/-- The Dump mnemonic of an opcode identity (R96). -/
def mnemonicOf : OpId → String
  | .CLS => "CLS"
  | .RET => "RET"
  | .CALL => "CALL"
  | .SYS => "SYS"
  | .JP => "JP"
  | .SE_VX_KK | .SE_VX_VY => "SE"
  | .SNE_VX_KK | .SNE_VX_VY => "SNE"
  | .LD_VX_KK | .LD_VX_VY | .LD_I_NNN | .LD_VX_DT | .LD_DT_VX | .LD_ST_VX | .LD_IND_VX | .LD_VX_IND => "LD"
  | .ADD_VX_KK | .ADD_VX_VY | .ADD_I_VX => "ADD"
  | .OR => "OR"
  | .AND => "AND"
  | .XOR => "XOR"
  | .SUB => "SUB"
  | .SUBN => "SUBN"
  | .SHR => "SHR"
  | .SHL => "SHL"

/-- The operand texts of an instruction in Dump order (R107, R108). -/
def operandTexts : Instr → List String
  | .cls => []
  | .ret => []
  | .call nnn => [hex nnn.toNat]
  | .sys nnn => [hex nnn.toNat]
  | .jp nnn => [hex nnn.toNat]
  | .seVxKk x kk => [reg x, hex kk.toNat]
  | .seVxVy x y => [reg x, reg y]
  | .sneVxKk x kk => [reg x, hex kk.toNat]
  | .sneVxVy x y => [reg x, reg y]
  | .ldVxKk x kk => [reg x, hex kk.toNat]
  | .ldVxVy x y => [reg x, reg y]
  | .ldINnn nnn => ["I", hex nnn.toNat]
  | .ldVxDt x => [reg x, "VDelay"]
  | .ldDtVx x => ["VDelay", reg x]
  | .ldStVx x => ["VSound", reg x]
  | .ldIndVx x => ["[I]", reg x]
  | .ldVxInd x => [reg x, "[I]"]
  | .addVxKk x kk => [reg x, hex kk.toNat]
  | .addVxVy x y => [reg x, reg y]
  | .addIVx x => ["I", reg x]
  | .orVxVy x y => [reg x, reg y]
  | .andVxVy x y => [reg x, reg y]
  | .xorVxVy x y => [reg x, reg y]
  | .subVxVy x y => [reg x, reg y]
  | .subnVxVy x y => [reg x, reg y]
  | .shrVxVy x y => [reg x, reg y]
  | .shlVxVy x y => [reg x, reg y]

/-- Operands, each preceded by one space (R105). -/
def spaced : List String → String
  | [] => ""
  | t :: ts => " " ++ t ++ spaced ts

/-- `Dump(instruction)`: the address tag, the mnemonic, the operands (R105). -/
def dump (ins : Instruction) : String :=
  hex ins.address ++ " " ++ mnemonicOf ins.instr.id ++ spaced (operandTexts ins.instr)

/-- The items of `Disassemble` from an address on: one per word, two addresses apart (R109). -/
def disassemble : List Word → Nat → List (Except DecodeError Instruction)
  | [], _ => []
  | w :: ws, base => make w base :: disassemble ws (base + 2)

/-- `DisassembleToString` (R110): one Dump a line, newline-terminated. It is defined only when every word decodes
(D22); otherwise the answer is the first decode error (log 17). -/
def disassembleToString : List Word → Nat → Except DecodeError String
  | [], _ => .ok ""
  | w :: ws, base =>
    match make w base, disassembleToString ws (base + 2) with
    | .error e, _ => .error e
    | .ok _, .error e => .error e
    | .ok ins, .ok rest => .ok (dump ins ++ "\n" ++ rest)

end Sys2Proof.Machine
end

