-- ==== Sys2Proof/Safety.lean ====
section
/-! DEFINITION. The terms the statements use: what a step may change (footprints), what it may depend on, the
invariant of the machine, and what a safe run is. -/

namespace Sys2Proof.Machine

/-! ## What may change -/

/-- The parts of a state that may change; everything not named in it is unchanged. -/
structure Footprint where
  v    : RegIdx → Bool := fun _ => false
  i    : Bool := false
  pc   : Bool := false
  sp   : Bool := false
  dt   : Bool := false
  st   : Bool := false
  cell : Nat → Bool := fun _ => false
  env  : Bool := false

/-- `t` differs from `s` only inside the footprint: every V register, every special register, EVERY byte of memory
and the surroundings outside it are as before. -/
def Footprint.Bounds (f : Footprint) (s t : State) : Prop :=
  (∀ j, f.v j = false → t.readV j = s.readV j) ∧
  (f.i = false → t.i = s.i) ∧
  (f.pc = false → t.pc = s.pc) ∧
  (f.sp = false → t.sp = s.sp) ∧
  (f.dt = false → t.dt = s.dt ∧ t.dtTop = s.dtTop) ∧
  (f.st = false → t.st = s.st ∧ t.stTop = s.stTop) ∧
  (∀ a, f.cell a = false → t.mem.get a = s.mem.get a) ∧
  (f.env = false → t.env = s.env)

/-- One V register. -/
def Footprint.reg (x : RegIdx) : Footprint := { v := fun j => j == x }
/-- VF and one V register: what the five flag writers write (R23, R25). -/
def Footprint.flagged (x : RegIdx) : Footprint := { v := fun j => j == x || j == vf }
/-- PC alone. -/
def Footprint.pcOnly : Footprint := { pc := true }
/-- Nothing. -/
def Footprint.nothing : Footprint := {}

/-- The first invalid address at or above I, where a block transfer that reaches it stops: I itself when I is outside the
window, else the first address above the window (R79, R212). -/
def State.firstBadAddr (s : State) : Nat := if isValidAddress s.i.toNat then Config.memSize else s.i.toNat

/-- What each instruction writes: the "writes" column of R23, with R28 for PC, R30 and R31 for the timers, R34 for
I and R66 for memory. A block transfer writes up to the first invalid address, and a transfer that fits meets none (R166,
R167, D12). -/
def footprint (i : Instr) (s : State) : Footprint :=
  match i with
  | .cls | .ret | .call _ | .sys _ => .nothing
  | .jp _ | .seVxKk _ _ | .seVxVy _ _ | .sneVxKk _ _ | .sneVxVy _ _ => .pcOnly
  | .ldVxKk x _ | .ldVxVy x _ | .ldVxDt x | .addVxKk x _ => .reg x
  | .orVxVy x _ | .andVxVy x _ | .xorVxVy x _ => .reg x
  | .ldINnn _ | .addIVx _ => { i := true }
  | .ldDtVx _ => { dt := true }
  | .ldStVx _ => { st := true }
  | .ldIndVx x => { cell := fun a => s.i.toNat ≤ a && a ≤ s.i.toNat + x.toNat && a < s.firstBadAddr }
  | .ldVxInd x => { v := fun j => j.toNat ≤ x.toNat && s.i.toNat + j.toNat < s.firstBadAddr }
  | .addVxVy x _ | .subVxVy x _ | .subnVxVy x _ | .shrVxVy x _ | .shlVxVy x _ => .flagged x

/-! ## What an instruction may depend on -/

/-- The V registers an instruction reads: the "reads" column of R23; SHR and SHL do not read Vy (R202). -/
def readsV (i : Instr) (j : RegIdx) : Bool :=
  match i with
  | .cls | .ret | .call _ | .sys _ | .jp _ | .ldINnn _ | .ldVxKk _ _ | .ldVxDt _ | .ldVxInd _ => false
  | .seVxKk x _ | .sneVxKk x _ | .ldDtVx x | .ldStVx x | .addVxKk x _ | .addIVx x => j == x
  | .shrVxVy x _ | .shlVxVy x _ => j == x
  | .ldVxVy _ y => j == y
  | .ldIndVx x => j.toNat ≤ x.toNat
  | .seVxVy x y | .sneVxVy x y | .addVxVy x y | .orVxVy x y | .andVxVy x y | .xorVxVy x y => j == x || j == y
  | .subVxVy x y | .subnVxVy x y => j == x || j == y

/-- The instructions that read PC: the four skips, to add 1 to it (R27). -/
def readsPc : Instr → Bool
  | .seVxKk _ _ | .seVxVy _ _ | .sneVxKk _ _ | .sneVxVy _ _ => true
  | .cls | .ret | .call _ | .sys _ | .jp _ => false
  | .ldVxKk _ _ | .ldVxVy _ _ | .ldINnn _ | .ldVxDt _ | .ldDtVx _ | .ldStVx _ | .ldIndVx _ | .ldVxInd _ => false
  | .addVxKk _ _ | .addVxVy _ _ | .addIVx _ | .orVxVy _ _ | .andVxVy _ _ | .xorVxVy _ _ => false
  | .subVxVy _ _ | .subnVxVy _ _ | .shrVxVy _ _ | .shlVxVy _ _ => false

/-- The instructions that read I: the two block transfers and ADD I,Vx (R34). -/
def readsI : Instr → Bool
  | .ldIndVx _ | .ldVxInd _ | .addIVx _ => true
  | .cls | .ret | .call _ | .sys _ | .jp _ | .seVxKk _ _ | .seVxVy _ _ | .sneVxKk _ _ | .sneVxVy _ _ => false
  | .ldVxKk _ _ | .ldVxVy _ _ | .ldINnn _ | .ldVxDt _ | .ldDtVx _ | .ldStVx _ => false
  | .addVxKk _ _ | .addVxVy _ _ | .orVxVy _ _ | .andVxVy _ _ | .xorVxVy _ _ => false
  | .subVxVy _ _ | .subnVxVy _ _ | .shrVxVy _ _ | .shlVxVy _ _ => false

/-- `u` agrees with `s` on everything the instruction reads: its V registers, PC, I, DT for LD Vx,DT and the bytes
`I .. I + x` for LD Vx,[I]. Nothing is asked of SP, ST or the surroundings. -/
def AgreeOnReads (i : Instr) (s u : State) : Prop :=
  (∀ j, readsV i j = true → u.readV j = s.readV j) ∧
  (readsPc i = true → u.pc = s.pc) ∧
  (readsI i = true → u.i = s.i) ∧
  (∀ x, i = .ldVxDt x → u.dt = s.dt) ∧
  (∀ x, i = .ldVxInd x → ∀ j : RegIdx, j.toNat ≤ x.toNat → u.mem.get (s.i.toNat + j.toNat) = s.mem.get (s.i.toNat + j.toNat))

/-! ## Errors and completion -/

/-- Whether the x + 1 bytes of a block transfer all lie in the window `[512, 4096)` (R61, R166, R167). -/
def State.blockFits (s : State) (x : RegIdx) : Prop :=
  Config.memThreshold ≤ s.i.toNat ∧ s.i.toNat + x.toNat < Config.memSize

/-- What an instruction needs to complete: a block transfer, that its bytes lie in the window; RET, CALL and SYS
never do (R213); every other instruction, nothing. -/
def Completes (i : Instr) (s : State) : Prop :=
  match i with
  | .ret | .call _ | .sys _ => False
  | .ldIndVx x | .ldVxInd x => s.blockFits x
  | .cls | .jp _ | .seVxKk _ _ | .seVxVy _ _ | .sneVxKk _ _ | .sneVxVy _ _ => True
  | .ldVxKk _ _ | .ldVxVy _ _ | .ldINnn _ | .ldVxDt _ | .ldDtVx _ | .ldStVx _ => True
  | .addVxKk _ _ | .addVxVy _ _ | .addIVx _ | .orVxVy _ _ | .andVxVy _ _ | .xorVxVy _ _ => True
  | .subVxVy _ _ | .subnVxVy _ _ | .shrVxVy _ _ | .shlVxVy _ _ => True

/-- The error an instruction that does not complete raises (R210, R213, R212). -/
def errorOf (i : Instr) (s : State) : Option CoreError :=
  match i with
  | .ret => some (.unimplemented .ret)
  | .call _ => some (.unimplemented .call)
  | .sys _ => some (.unimplemented .sys)
  | .ldIndVx _ | .ldVxInd _ => some (.addressRange s.firstBadAddr)
  | .cls | .jp _ | .seVxKk _ _ | .seVxVy _ _ | .sneVxKk _ _ | .sneVxVy _ _ => none
  | .ldVxKk _ _ | .ldVxVy _ _ | .ldINnn _ | .ldVxDt _ | .ldDtVx _ | .ldStVx _ => none
  | .addVxKk _ _ | .addVxVy _ _ | .addIVx _ | .orVxVy _ _ | .andVxVy _ _ | .xorVxVy _ _ => none
  | .subVxVy _ _ | .subnVxVy _ _ | .shrVxVy _ _ | .shlVxVy _ _ => none

/-! ## The invariant and safe runs -/

/-- The invariant of the machine: memory is in canonical form, and only addresses of the window are listed, so the
reserved bytes 0..511 hold their reset value 0 and nothing exists above 4095 (R36, R40, R61, R71). -/
abbrev State.Inv (s : State) : Prop := s.mem.wf ∧ ∀ c ∈ s.mem, isValidAddress c.1 = true

/-- The state an outcome leaves: the next state, or the state handed to the host with a fault (R216). -/
def stateAfter : Result → Option State
  | .next s => some s
  | .fault (.raised _ s) => some s
  | .fault (.runEnded s) => some s
  | .refused _ => none

/-- The next state, if there is one. -/
def nextState : Result → Option State
  | .next s => some s
  | .fault _ => none
  | .refused _ => none

/-- The error of an outcome, if it is one. -/
def errorIn : Result → Option CoreError
  | .fault (.raised e _) => some e
  | .fault (.runEnded _) => none
  | .next _ => none
  | .refused _ => none

/-- Neither timer exceeds the value the program or the host last wrote to it (R220). -/
abbrev State.TimersBounded (s : State) : Prop := s.dt.toNat ≤ s.dtTop.toNat ∧ s.st.toNat ≤ s.stTop.toNat

/-- Every word of the sequencer's list decodes to an instruction that completes in every state. -/
def State.OnlyCompleting (s : State) : Prop :=
  ∀ w ∈ s.env.seq.words, ∃ i, decode w = .ok i ∧ ∀ u : State, Completes i u

/-- R226's premise of a run: the host does nothing under (b) between the steps; what it may do under (f) is the timer
agent, which is in `step`. -/
def HostSilent (host : List (List HostAct)) : Prop := ∀ turn ∈ host, turn = []

/-- An act of the host that raises no error: its memory address lies in the window (R61, R65). -/
def HostAct.inWindow : HostAct → Bool
  | .reg8 _ _ => true
  | .reg16 _ _ => true
  | .memRead a => isValidAddress a
  | .memWrite a _ => isValidAddress a

/-- A safe run, one step for each turn of the host: it completes them, or ends normally because the sequencer selects
no word (R255, log 8); it raises no error and is not refused (R217). What the host does meanwhile is the argument. -/
def SafeRun (host : List (List HostAct)) (s : State) : Prop :=
  (∃ t : State, runHosted host s = .next t) ∨ (∃ t : State, runHosted host s = .fault (.runEnded t))

end Sys2Proof.Machine
end

