-- ==== Sys2Proof/Certificates/Slice0/Obligations.lean ====
section
/-! DEFINITION. The statements for the provers. Each docstring names the rule of spec/ it formalises; a clause that rests
on the spec's own decision (D<n>), on its general knowledge (GK1) or on this model's choice (log <n>) is named there. -/

open Sys2Proof Sys2Proof.Machine

/-! ## Encoding and decoding -/

/-- Formats R92, values R96, extraction R94 (the opcode values are the spec's general knowledge, D3, log 9): decoding
the word of a well-formed instruction gives the instruction, every operand at every value. -/
def Obligations.DecodeOfEncodeGivesTheInstruction : Prop :=
  ∀ i : Instr, i.wellFormed = true → decode (encode i) = .ok i

/-- The other direction (R90, R96, R97): a word that decodes is the word of the instruction it decodes to, which is
well-formed, so no bit of a word is dropped and no two words stand for one instruction. It is so by choice: the opcode
masks compare every bit that is no operand bit, the spec's decision D4 (log 10), and 24 opcode values are its general
knowledge (D3, log 9). -/
def Obligations.EncodeOfDecodedWordGivesTheWord : Prop :=
  ∀ (w : Word) (i : Instr), decode w = .ok i → i.wellFormed = true ∧ encode i = w

/-- Words written out from R96 and 95_test_vectors.md section 2.1, at least one for each of the 27 opcodes, hence for every
family (mnemonic, R12); the words of R93 are the document's own, the other opcode values the spec's general knowledge
(D3, log 9). That 0x5AB1 and 0xFFFF are decode errors rests on the spec's strict masks and on its having no further
opcode (D4, D6, log 10). -/
def Obligations.DecoderReadsWrittenOutWords : Prop :=
  (decode 0x00E0 = .ok .cls ∧ decode 0x610F = .ok (.ldVxKk 1 0x0F) ∧ decode 0x620A = .ok (.ldVxKk 2 0x0A) ∧
    decode 0x8124 = .ok (.addVxVy 1 2) ∧ decode 0xFFFF = .error ⟨0xFFFF⟩ ∧ decode 0x5AB1 = .error ⟨0x5AB1⟩) ∧
  (decode 0x00EE = .ok .ret ∧ decode 0x2FFF = .ok (.call 0xFFF) ∧ decode 0x00E1 = .ok (.sys 0x0E1) ∧
    decode 0x1ABC = .ok (.jp 0xABC) ∧ decode 0x3A7F = .ok (.seVxKk 10 0x7F) ∧ decode 0x5AB0 = .ok (.seVxVy 10 11) ∧
    decode 0x4F00 = .ok (.sneVxKk 15 0) ∧ decode 0x9120 = .ok (.sneVxVy 1 2)) ∧
  (decode 0x8120 = .ok (.ldVxVy 1 2) ∧ decode 0xA123 = .ok (.ldINnn 0x123) ∧ decode 0xF107 = .ok (.ldVxDt 1) ∧
    decode 0xF115 = .ok (.ldDtVx 1) ∧ decode 0xF118 = .ok (.ldStVx 1) ∧ decode 0xF155 = .ok (.ldIndVx 1) ∧
    decode 0xF165 = .ok (.ldVxInd 1)) ∧
  (decode 0x7001 = .ok (.addVxKk 0 1) ∧ decode 0xF11E = .ok (.addIVx 1) ∧ decode 0x8121 = .ok (.orVxVy 1 2) ∧
    decode 0x8122 = .ok (.andVxVy 1 2) ∧ decode 0x8123 = .ok (.xorVxVy 1 2) ∧ decode 0x8125 = .ok (.subVxVy 1 2) ∧
    decode 0x8127 = .ok (.subnVxVy 1 2) ∧ decode 0x8126 = .ok (.shrVxVy 1 2) ∧ decode 0x812E = .ok (.shlVxVy 1 2))

/-- R97 and R98: Decode returns the first definition, in table order, whose opcode mask applied to the word equals its
value; when no definition matches, it is the decode error carrying the offending word, never a fallback; and the decoded
instruction has the identity of that definition. -/
def Obligations.DecodeReturnsTheFirstMatchOrTheError : Prop :=
  ∀ w : Word,
    (∀ d, decodeDef w = some d ↔
      ∃ before after, catalogue = before ++ d :: after ∧ w &&& d.mask = d.value ∧
        ∀ e ∈ before, w &&& e.mask ≠ e.value) ∧
    (decode w = .error ⟨w⟩ ↔ ∀ d ∈ catalogue, w &&& d.mask ≠ d.value) ∧
    (∀ e, decode w = .error e → e = ⟨w⟩) ∧
    (∀ i, decode w = .ok i → ∃ d, decodeDef w = some d ∧ i.id = d.id)

/-- R99 (derived in the spec from R96 and R97), with R95's `value & mask = value`: decoding a definition's own canonical
value returns that definition. -/
def Obligations.EveryDefinitionDecodesFromItsOwnValue : Prop :=
  ∀ d ∈ catalogue, decodeDef d.value = some d ∧ d.value &&& d.mask = d.value

/-- R112 (derived in the spec): the dispatch on nibbles equals the scan of the catalogue on every word. -/
def Obligations.NibbleDispatchEqualsCatalogueScan : Prop :=
  ∀ w : Word, (decodeDef w).map (·.id) = dispatchWord w

/-- R103 (derived in the spec): every order of the 27 definitions that keeps CLS and RET before SYS yields the same
Decode function. -/
def Obligations.EveryAdmissibleOrderDecodesAlike : Prop :=
  ∀ l : List Definition, l.Perm catalogue →
    (∀ before d after, l = before ++ d :: after → d.id = .SYS →
      (∃ c ∈ before, c.id = .CLS) ∧ (∃ r ∈ before, r.id = .RET)) →
    ∀ w : Word, l.find? (·.matchesWord w) = decodeDef w

/-- R103: the only words that match two definitions are 0x00E0 and 0x00EE, and SYS is one of the two. A claim about words:
the values of RET and SYS are the spec's general knowledge (D3, log 9), the masks its decision (D4, log 10). -/
def Obligations.OnlyClsAndRetWordsMatchTwoDefinitions : Prop :=
  ∀ (w : Word) (d e : Definition), d ∈ catalogue → e ∈ catalogue → d ≠ e →
    d.matchesWord w = true → e.matchesWord w = true →
    (w = 0x00E0 ∨ w = 0x00EE) ∧ (d.id = .SYS ∨ e.id = .SYS)

/-- R101's table (the opcode values are the spec's general knowledge, D3, D4, D6, log 9, log 10): which words raise the
decode error, by leading nibble. -/
def Obligations.UndecodableWordsByLeadingNibble : Prop :=
  ∀ w : Word, decode w = .error ⟨w⟩ ↔
    (w.extractLsb' 12 4 ∈ [0x5#4, 0x9#4] ∧ w.extractLsb' 0 4 ≠ 0#4) ∨
    (w.extractLsb' 12 4 = 0x8#4 ∧ w.extractLsb' 0 4 ∈ [0x8#4, 0x9#4, 0xA#4, 0xB#4, 0xC#4, 0xD#4, 0xF#4]) ∨
    w.extractLsb' 12 4 ∈ [0xB#4, 0xC#4, 0xD#4, 0xE#4] ∨
    (w.extractLsb' 12 4 = 0xF#4 ∧ w.extractLsb' 0 8 ∉ [0x07#8, 0x15#8, 0x18#8, 0x1E#8, 0x55#8, 0x65#8])

/-- R94 with R91's shifts and R95's field masks: every operand is the word under its mask, shifted down, used as
extracted. -/
def Obligations.OperandsAreTheMaskedShiftedFields : Prop :=
  ∀ (w : Word) (d : Definition) (i : Instr), decodeDef w = some d → decode w = .ok i →
    i.operands = d.operandMasks.map fun m =>
      ((w &&& m) >>> (if m = 0x0F00 then 8 else if m = 0x00F0 then 4 else 0)).toNat

/-! ## Control flow -/

/-- R140 with the document's word for it (R93; that CLS is not `Unimplemented` is D26): CLS changes nothing. -/
def Obligations.ClsChangesNothing : Prop :=
  decode 0x00E0 = .ok .cls ∧ ∀ s : State, ∃ t, exec .cls s = .next t ∧ Footprint.nothing.Bounds s t ∧ t = s

/-- R141 to R143, R213, R215: RET, CALL and SYS always raise `Unimplemented` with their identity, before any state
change: the state handed to the host is the state before. -/
def Obligations.RetCallSysRaiseUnimplemented : Prop :=
  ∀ (s : State) (nnn : Addr12),
    exec .ret s = .fault (.raised (.unimplemented .ret) s) ∧
    exec (.call nnn) s = .fault (.raised (.unimplemented .call) s) ∧
    exec (.sys nnn) s = .fault (.raised (.unimplemented .sys) s)

/-- R144: JP puts the operand, zero-extended, in PC; nothing else changes. -/
def Obligations.JpSetsPcToTheOperand : Prop :=
  ∀ (s : State) (nnn : Addr12), ∃ t, exec (.jp nnn) s = .next t ∧
    t.pc.toNat = nnn.toNat ∧ Footprint.pcOnly.Bounds s t

/-- R145, R146: SE adds exactly 1 to PC when the values are equal and 0 otherwise; nothing else changes. The reduction
modulo 65536 at PC = 0xFFFF is the spec's decision D8 (log 13). -/
def Obligations.SeAddsOneToPcWhenEqual : Prop :=
  ∀ (s : State) (x y : RegIdx) (kk : Byte),
    (∃ t, exec (.seVxKk x kk) s = .next t ∧ Footprint.pcOnly.Bounds s t ∧
      t.pc.toNat = (s.pc.toNat + if s.readV x = kk then 1 else 0) % 65536) ∧
    (∃ t, exec (.seVxVy x y) s = .next t ∧ Footprint.pcOnly.Bounds s t ∧
      t.pc.toNat = (s.pc.toNat + if s.readV x = s.readV y then 1 else 0) % 65536)

/-- R147, R148: SNE adds exactly 1 to PC when the values differ and 0 otherwise; nothing else changes (modulo 65536: D8,
log 13). -/
def Obligations.SneAddsOneToPcWhenDifferent : Prop :=
  ∀ (s : State) (x y : RegIdx) (kk : Byte),
    (∃ t, exec (.sneVxKk x kk) s = .next t ∧ Footprint.pcOnly.Bounds s t ∧
      t.pc.toNat = (s.pc.toNat + if s.readV x = kk then 0 else 1) % 65536) ∧
    (∃ t, exec (.sneVxVy x y) s = .next t ∧ Footprint.pcOnly.Bounds s t ∧
      t.pc.toNat = (s.pc.toNat + if s.readV x = s.readV y then 0 else 1) % 65536)

/-! ## Loads and stores -/

/-- R160, whole: every word `6xkk` is LD Vx,kk with its two fields, and it puts `kk` in Vx, whichever register x names,
VF too; no flag, no other change. -/
def Obligations.LdVxKkPutsTheConstantInVx : Prop :=
  (∀ w : Word, w &&& 0xF000 = 0x6000 → decode w = .ok (.ldVxKk (w.extractLsb' 8 4) (w.extractLsb' 0 8))) ∧
  ∀ (s : State) (x : RegIdx) (kk : Byte), ∃ t, exec (.ldVxKk x kk) s = .next t ∧
    t.readV x = kk ∧ (Footprint.reg x).Bounds s t

/-- R161: LD Vx,Vy copies Vy to Vx; Vy keeps its value. -/
def Obligations.LdVxVyCopiesVy : Prop :=
  ∀ (s : State) (x y : RegIdx), ∃ t, exec (.ldVxVy x y) s = .next t ∧
    t.readV x = s.readV y ∧ t.readV y = s.readV y ∧ (Footprint.reg x).Bounds s t

/-- R162: LD I,nnn puts the 12-bit operand in I, so I is below 0x1000; it is not checked against the window. -/
def Obligations.LdIPutsTheOperandInI : Prop :=
  ∀ (s : State) (nnn : Addr12), ∃ t, exec (.ldINnn nnn) s = .next t ∧
    t.i.toNat = nnn.toNat ∧ t.i.toNat < 0x1000 ∧ ({ i := true } : Footprint).Bounds s t

/-- R163: LD Vx,DT copies DT to Vx; DT is unchanged. -/
def Obligations.LdVxDtCopiesTheDelayTimer : Prop :=
  ∀ (s : State) (x : RegIdx), ∃ t, exec (.ldVxDt x) s = .next t ∧
    t.readV x = s.dt ∧ t.dt = s.dt ∧ (Footprint.reg x).Bounds s t

/-- R164, R165: LD DT,Vx and LD ST,Vx copy Vx to the timer register and change nothing else; the value written is from then
on the one that bounds a timer agent's draws (R220, log 6). -/
def Obligations.LdDtAndLdStCopyVx : Prop :=
  ∀ (s : State) (x : RegIdx),
    (∃ t, exec (.ldDtVx x) s = .next t ∧ t.dt = s.readV x ∧ t.dtTop = s.readV x ∧
      ({ dt := true } : Footprint).Bounds s t) ∧
    (∃ t, exec (.ldStVx x) s = .next t ∧ t.st = s.readV x ∧ t.stTop = s.readV x ∧
      ({ st := true } : Footprint).Bounds s t)

/-- R166 when the block fits the window: the byte at `I + j` is Vj for every `j` in `0..=x`, every other byte, every
register and I are unchanged. Premise: the memory invariant (canonical form). -/
def Obligations.StoreBlockWritesV0ToVx : Prop :=
  ∀ (s : State) (x : RegIdx), s.Inv → s.blockFits x →
    ∃ t, exec (.ldIndVx x) s = .next t ∧
      (∀ j : RegIdx, j.toNat ≤ x.toNat → t.mem.get (s.i.toNat + j.toNat) = s.readV j) ∧
      ({ cell := fun a => s.i.toNat ≤ a && a ≤ s.i.toNat + x.toNat } : Footprint).Bounds s t

/-- R166, R212, R216 when it does not fit: `AddressRange` with the first invalid address; the bytes at the valid
addresses before it stay written (D12, log 12), the address is not wrapped (D11), and nothing else changes. -/
def Obligations.StoreBlockThatDoesNotFitRaisesAddressRange : Prop :=
  ∀ (s : State) (x : RegIdx), s.Inv → ¬ s.blockFits x →
    ∃ t, exec (.ldIndVx x) s = .fault (.raised (.addressRange s.firstBadAddr) t) ∧
      (∀ j : RegIdx, s.i.toNat + j.toNat < s.firstBadAddr → t.mem.get (s.i.toNat + j.toNat) = s.readV j) ∧
      ({ cell := fun a => s.i.toNat ≤ a && a < s.firstBadAddr } : Footprint).Bounds s t

/-- R167 when the block fits the window: Vj holds the byte at `I + j` for every `j` in `0..=x`, VF too when x = 15; the
other registers, I and memory are unchanged. -/
def Obligations.LoadBlockReadsV0ToVx : Prop :=
  ∀ (s : State) (x : RegIdx), s.blockFits x →
    ∃ t, exec (.ldVxInd x) s = .next t ∧
      (∀ j : RegIdx, j.toNat ≤ x.toNat → t.readV j = s.mem.get (s.i.toNat + j.toNat)) ∧
      ({ v := fun j => j.toNat ≤ x.toNat } : Footprint).Bounds s t

/-- R167, R212, R216 when it does not fit: `AddressRange` with the first invalid address; the registers before it keep
their new values, the others their old ones (D12, log 12), and nothing else changes. -/
def Obligations.LoadBlockThatDoesNotFitRaisesAddressRange : Prop :=
  ∀ (s : State) (x : RegIdx), ¬ s.blockFits x →
    ∃ t, exec (.ldVxInd x) s = .fault (.raised (.addressRange s.firstBadAddr) t) ∧
      (∀ j : RegIdx, s.i.toNat + j.toNat < s.firstBadAddr → t.readV j = s.mem.get (s.i.toNat + j.toNat)) ∧
      ({ v := fun j => s.i.toNat + j.toNat < s.firstBadAddr } : Footprint).Bounds s t

/-- R167's round trip: LD [I],Vx followed by LD Vx,[I] leaves every register as it was, V0 to VF, I, PC, SP, DT and ST;
the state at the end is the state at the start but for memory. -/
def Obligations.StoreThenLoadLeavesEveryRegister : Prop :=
  ∀ (s : State) (x : RegIdx), s.Inv → s.blockFits x →
    ∃ t u, exec (.ldIndVx x) s = .next t ∧ exec (.ldVxInd x) t = .next u ∧
      (∀ j, u.readV j = s.readV j) ∧ u.i = s.i ∧ u.pc = s.pc ∧ u.sp = s.sp ∧ u.dt = s.dt ∧ u.st = s.st ∧
      u.mem = t.mem ∧ u = s.setMem t.mem

/-! ## Arithmetic, logic and shifts -/

/-- R180: ADD Vx,kk adds modulo 256 and writes no flag, whatever the sum (x = 15 adds to VF as to any register). -/
def Obligations.AddVxKkAddsWithoutFlag : Prop :=
  ∀ (s : State) (x : RegIdx) (kk : Byte), ∃ t, exec (.addVxKk x kk) s = .next t ∧
    (t.readV x).toNat = ((s.readV x).toNat + kk.toNat) % 256 ∧ (Footprint.reg x).Bounds s t

/-- R181, R189: every word `8xy4` is ADD Vx,Vy; Vx becomes the sum modulo 256, VF becomes 1 iff the sum of the OLD
values exceeds 255, else 0, and nothing else changes; for x = 15 the sum overwrites the carry (latched operands, result
last: the spec's decision D9, log 11). -/
def Obligations.AddVxVySetsSumAndCarry : Prop :=
  (∀ w : Word, w &&& 0xF00F = 0x8004 → decode w = .ok (.addVxVy (w.extractLsb' 8 4) (w.extractLsb' 4 4))) ∧
  ∀ (s : State) (x y : RegIdx), ∃ t, exec (.addVxVy x y) s = .next t ∧
    (t.readV x).toNat = ((s.readV x).toNat + (s.readV y).toNat) % 256 ∧
    (x ≠ 15 → (t.readV 15).toNat = if (s.readV x).toNat + (s.readV y).toNat > 255 then 1 else 0) ∧
    (Footprint.flagged x).Bounds s t

/-- R182: ADD I,Vx adds to I with no 12-bit mask and no flag; the reduction modulo 65536 is the spec's decision D10 (log
13). -/
def Obligations.AddIVxAddsToIWithoutMask : Prop :=
  ∀ (s : State) (x : RegIdx), ∃ t, exec (.addIVx x) s = .next t ∧
    t.i.toNat = (s.i.toNat + (s.readV x).toNat) % 65536 ∧ ({ i := true } : Footprint).Bounds s t

/-- R183 to R185: OR, AND and XOR act on all 8 bits independently, into Vx; VF is not written unless it is Vx. -/
def Obligations.LogicActsOnEachBitWithoutFlag : Prop :=
  ∀ (s : State) (x y : RegIdx),
    (∃ t, exec (.orVxVy x y) s = .next t ∧ (Footprint.reg x).Bounds s t ∧
      ∀ k, (t.readV x).getLsbD k = ((s.readV x).getLsbD k || (s.readV y).getLsbD k)) ∧
    (∃ t, exec (.andVxVy x y) s = .next t ∧ (Footprint.reg x).Bounds s t ∧
      ∀ k, (t.readV x).getLsbD k = ((s.readV x).getLsbD k && (s.readV y).getLsbD k)) ∧
    (∃ t, exec (.xorVxVy x y) s = .next t ∧ (Footprint.reg x).Bounds s t ∧
      ∀ k, (t.readV x).getLsbD k = ((s.readV x).getLsbD k != (s.readV y).getLsbD k))

/-- R186, R189: SUB leaves `(Vx - Vy) mod 256` in Vx and 1 in VF iff Vx > Vy before, strictly; when x = 15 the result
overwrites the flag (latched operands, result last: D9, log 11). -/
def Obligations.SubSetsDifferenceAndStrictGreater : Prop :=
  ∀ (s : State) (x y : RegIdx), ∃ t, exec (.subVxVy x y) s = .next t ∧
    (t.readV x).toNat = ((s.readV x).toNat + 256 - (s.readV y).toNat) % 256 ∧
    (x ≠ 15 → (t.readV 15).toNat = if (s.readV x).toNat > (s.readV y).toNat then 1 else 0) ∧
    (Footprint.flagged x).Bounds s t

/-- R187, R189: SUBN leaves the SAME difference `(Vx - Vy) mod 256` (C5, D24, log 14) and 1 in VF iff Vx < Vy before (D9,
log 11); so SUB and SUBN leave the same Vx, and, for x ≠ 15, flags both 0 when Vx = Vy and opposite otherwise. -/
def Obligations.SubnSetsTheSameDifferenceAndStrictLess : Prop :=
  ∀ (s : State) (x y : RegIdx), ∃ t u, exec (.subnVxVy x y) s = .next t ∧ exec (.subVxVy x y) s = .next u ∧
    (t.readV x).toNat = ((s.readV x).toNat + 256 - (s.readV y).toNat) % 256 ∧ t.readV x = u.readV x ∧
    (x ≠ 15 → (t.readV 15).toNat = if (s.readV x).toNat < (s.readV y).toNat then 1 else 0) ∧
    (x ≠ 15 → (t.readV 15).toNat + (u.readV 15).toNat = if s.readV x = s.readV y then 0 else 1) ∧
    (Footprint.flagged x).Bounds s t

/-- R200, R202, R189: SHR halves Vx, and VF is the low bit shifted out (result last when x = 15: D9, log 11); Vy is
unused, all sixteen values of y give the same behaviour. -/
def Obligations.ShrHalvesVxAndShiftsOutTheLowBit : Prop :=
  ∀ (s : State) (x y : RegIdx), ∃ t, exec (.shrVxVy x y) s = .next t ∧
    (t.readV x).toNat = (s.readV x).toNat / 2 ∧
    (x ≠ 15 → (t.readV 15).toNat = (s.readV x).toNat % 2) ∧
    (Footprint.flagged x).Bounds s t ∧ ∀ y', exec (.shrVxVy x y') s = .next t

/-- R201, R202, R189: SHL doubles Vx modulo 256, and VF is the high bit shifted out (result last when x = 15: D9, log
11); Vy is unused. -/
def Obligations.ShlDoublesVxAndShiftsOutTheHighBit : Prop :=
  ∀ (s : State) (x y : RegIdx), ∃ t, exec (.shlVxVy x y) s = .next t ∧
    (t.readV x).toNat = (2 * (s.readV x).toNat) % 256 ∧
    (x ≠ 15 → (t.readV 15).toNat = (s.readV x).toNat / 128) ∧
    (Footprint.flagged x).Bounds s t ∧ ∀ y', exec (.shlVxVy x y') s = .next t

/-! ## All instructions at once -/

/-- R149 with R23, R26, R28, R30 to R32, R34, R66: whatever the outcome, a next state or the state an error leaves, an
instruction writes only its footprint (for a block transfer that stops, what precedes the invalid address: D12, log 12):
every other register, PC, SP, both timers, every other byte of memory and the
surroundings are unchanged. -/
def Obligations.ExecWritesOnlyItsFootprint : Prop :=
  ∀ (i : Instr) (s t : State), stateAfter (exec i s) = some t → (footprint i s).Bounds s t

/-- R23's "reads" column with R27, R32, R34, R66, R202: on two states that agree on what an instruction reads it raises the
same error or none, completes in both or in neither, and leaves states that agree on everything it writes; this holds of
the state a failing block transfer leaves too (its partial bytes or registers: D12, log 12). In particular no instruction
depends on SP, ST, the surroundings, or VF as a flag. -/
def Obligations.ExecDependsOnlyOnWhatItReads : Prop :=
  ∀ (i : Instr) (s u : State), AgreeOnReads i s u →
    errorIn (exec i u) = errorIn (exec i s) ∧
    ∀ t, stateAfter (exec i s) = some t → ∃ t', stateAfter (exec i u) = some t' ∧
      (exec i s = .next t ↔ exec i u = .next t') ∧
      (∀ j, (footprint i s).v j = true → t'.readV j = t.readV j) ∧
      ((footprint i s).i = true → t'.i = t.i) ∧
      ((footprint i s).pc = true → t'.pc = t.pc) ∧
      ((footprint i s).dt = true → t'.dt = t.dt ∧ t'.dtTop = t.dtTop) ∧
      ((footprint i s).st = true → t'.st = t.st ∧ t'.stTop = t.stTop) ∧
      (s.mem.wf → u.mem.wf → ∀ a, (footprint i s).cell a = true → t'.mem.get a = t.mem.get a)

/-- R8, R149, R210, R213, R214: an instruction completes exactly when it is not RET, CALL or SYS and, for a block
transfer, all its bytes lie in the window; otherwise it raises exactly the error the spec names; it is never refused. -/
def Obligations.ExecCompletesOrRaisesTheNamedError : Prop :=
  ∀ (i : Instr) (s : State),
    (Completes i s → ∃ t, exec i s = .next t) ∧
    (¬ Completes i s → ∃ e t, errorOf i s = some e ∧ exec i s = .fault (.raised e t))

/-! ## Memory and the host's ports -/

/-- R62: a controller read returns the byte of a valid address and raises `AddressRange` with the address otherwise. A read
answers a byte or an error and no state, so there is nothing it could change. -/
def Obligations.MemReadReturnsTheByteOrRaises : Prop :=
  ∀ (s : State) (a : Nat),
    (512 ≤ a ∧ a < 4096 → s.memRead a = .ok (s.mem.get a)) ∧
    (¬ (512 ≤ a ∧ a < 4096) → s.memRead a = .error (.addressRange a))

/-- R63: a controller write of a number to a valid address leaves it there modulo 256 and changes no other cell or
register; otherwise it raises `AddressRange` with the address and no cell changes. Premise: canonical memory. -/
def Obligations.MemWriteStoresOneByteOrRaises : Prop :=
  ∀ (s : State) (a n : Nat), s.mem.wf →
    (512 ≤ a ∧ a < 4096 → ∃ t, s.hostWrite a n = .ok t ∧ (t.mem.get a).toNat = n % 256 ∧
      ({ cell := fun b => b == a } : Footprint).Bounds s t) ∧
    (¬ (512 ≤ a ∧ a < 4096) → s.hostWrite a n = .error (.addressRange a))

/-- R64: `IsValidAddress`, and the host port `mem_valid`, is true exactly on the window; being a function of the address
alone it never raises and changes nothing. -/
def Obligations.ValidAddressesAreTheWindow : Prop :=
  ∀ a : Nat, (isValidAddress a = true ↔ 512 ≤ a ∧ a < 4096) ∧ memValid a = isValidAddress a

/-- The model's canonical form (log 5): two canonical memories that read alike at every address are the same data. -/
def Obligations.CanonicalMemoriesThatReadAlikeAreEqual : Prop :=
  ∀ m n : Memory, m.wf → n.wf → (∀ a, m.get a = n.get a) → m = n

/-- R22, R38, R39: a port write leaves the number modulo 256 (modulo 65536) in the named register, I unmasked, and
changes no other register, no byte and nothing else. -/
def Obligations.RegisterPortsStoreModuloTheWidth : Prop :=
  ∀ (s : State) (n : Nat),
    (∀ x, ((s.reg8Write (.v x) n).readV x).toNat = n % 256 ∧
      (Footprint.reg x).Bounds s (s.reg8Write (.v x) n)) ∧
    ((s.reg8Write .dt n).dt.toNat = n % 256 ∧ ({ dt := true } : Footprint).Bounds s (s.reg8Write .dt n)) ∧
    ((s.reg8Write .st n).st.toNat = n % 256 ∧ ({ st := true } : Footprint).Bounds s (s.reg8Write .st n)) ∧
    ((s.reg8Write .sp n).sp.toNat = n % 256 ∧ ({ sp := true } : Footprint).Bounds s (s.reg8Write .sp n)) ∧
    ((s.reg16Write .i n).i.toNat = n % 65536 ∧ ({ i := true } : Footprint).Bounds s (s.reg16Write .i n)) ∧
    ((s.reg16Write .pc n).pc.toNat = n % 65536 ∧ ({ pc := true } : Footprint).Bounds s (s.reg16Write .pc n)) ∧
    (∀ r, (s.reg8Write r n).reg8Read r = BitVec.ofNat 8 n) ∧ (∀ r, (s.reg16Write r n).reg16Read r = BitVec.ofNat 16 n)

/-- R67, R80, R251 (3): an image that fits the window is placed with word `k` big-endian at `base + 2*k` and
`base + 2*k + 1`, and only those bytes change. -/
def Obligations.ImageIsPlacedBigEndian : Prop :=
  ∀ (s : State) (base : Nat) (words : List Word), s.Inv → 512 ≤ base → base + 2 * words.length ≤ 4096 →
    ∃ t, loadImage base words s = .next t ∧
      (∀ (k : Nat) (w : Word), words[k]? = some w →
        wordOfBytes (t.mem.get (base + 2 * k)) (t.mem.get (base + 2 * k + 1)) = w) ∧
      ({ cell := fun a => base ≤ a && a < base + 2 * words.length } : Footprint).Bounds s t

/-! ## Steps -/

/-- R10, R11, R252 to R254: when the word of the slot decodes, a step is Execute of that instruction after the fetch's
advance, under the host's policy. SEQ-W selects slot `PC - ENTRY` and adds 1 to PC; SEQ-STREAM selects the next word
of the list and leaves PC. With a timer agent the same holds of the state the agent left, as it acts
before the fetch by the model's choice (log 1, 6, 7, 23). -/
def Obligations.StepRunsTheDecodedInstruction : Prop :=
  (∀ (s : State) (w : Word) (i : Instr), s.env.timer = .absent → s.env.seq.kind = .wordSlot →
    s.env.seq.words[(s.pc - s.env.seq.entry).toNat]? = some w → decode w = .ok i →
    step s = settle s.env.policy (exec i (s.setPc (s.pc + 1)))) ∧
  (∀ (s : State) (w : Word) (i : Instr), s.env.timer = .absent → s.env.seq.kind = .stream →
    s.env.seq.words[s.env.seq.cursor]? = some w → decode w = .ok i →
    step s = settle s.env.policy
      (exec i (s.setEnv { s.env with seq := { s.env.seq with cursor := s.env.seq.cursor + 1 } }))) ∧
  (∀ (s : State) (w : Word) (a : Nat) (i : Instr), s.timerActs.nextWord = some (w, a) → decode w = .ok i →
    step s = settle s.env.policy (exec i s.timerActs.advance)) ∧
  (∀ o : Result, settle ⟨.endRun, .endRun, .endRun⟩ o = o)

/-- R253 (the reference sequencer is the spec's choice D7, log 1): under SEQ-W a JP leaves PC at its operand, a satisfied
skip adds 2, and any other instruction adds 1, modulo 65536 (D8). -/
def Obligations.WordSlotStepMovesPcAsTheSpecSays : Prop :=
  ∀ (s t : State) (w : Word) (i : Instr), s.env.timer = .absent → s.env.seq.kind = .wordSlot →
    s.env.seq.words[(s.pc - s.env.seq.entry).toNat]? = some w → decode w = .ok i → step s = .next t →
    t.pc = match i with
      | .jp nnn => BitVec.ofNat 16 nnn.toNat
      | .seVxKk x kk => if s.readV x = kk then s.pc + 2 else s.pc + 1
      | .seVxVy x y => if s.readV x = s.readV y then s.pc + 2 else s.pc + 1
      | .sneVxKk x kk => if s.readV x = kk then s.pc + 1 else s.pc + 2
      | .sneVxVy x y => if s.readV x = s.readV y then s.pc + 1 else s.pc + 2
      | _ => s.pc + 1

/-- R255 (a): when the sequencer selects no word the run is over, and the state at that moment is the final state; the
model's stop for it is its own (log 8). -/
def Obligations.RunEndsWhenNoWordIsSelected : Prop :=
  ∀ s : State, s.env.timer = .absent →
    (s.env.seq.kind = .wordSlot → s.env.seq.words.length ≤ (s.pc - s.env.seq.entry).toNat →
      step s = .fault (.runEnded s)) ∧
    (s.env.seq.kind = .stream → s.env.seq.words.length ≤ s.env.seq.cursor → step s = .fault (.runEnded s))

/-- R98, R211, R216: an undecodable word raises `DecodeError` with the word, and nothing has changed but the PC advance made
at fetch, which is not undone. What the state is after an error is the spec's own choice (D13, log 7); the advance is that
of its reference sequencer SEQ-W (D7, log 1), and the policy its reference, end the run (log 7). -/
def Obligations.UndecodableWordRaisesAtTheStep : Prop :=
  ∀ (s : State) (w : Word) (e : DecodeError), s.env.timer = .absent → s.env.seq.kind = .wordSlot →
    s.env.policy.onDecodeError = .endRun →
    s.env.seq.words[(s.pc - s.env.seq.entry).toNat]? = some w → decode w = .error e →
    step s = .fault (.raised (.decodeError w) (s.setPc (s.pc + 1)))

/-- R217, R226 (d): a host whose policy carries on with an error of a kind takes the state the error left as the next
state and notes the error; one that ends the run on it leaves the fault. The continuation is the model's parameter
(log 7). -/
def Obligations.ErrorPolicyEndsTheRunOrCarriesOn : Prop :=
  ∀ (s : State) (w : Word) (a : Nat) (e : CoreError) (u : State), s.timerActs.nextWord = some (w, a) →
    present w a s.timerActs.advance = .fault (.raised e u) →
    (s.env.policy.reaction e = .endRun → step s = .fault (.raised e u)) ∧
    (s.env.policy.reaction e = .carryOn → ∃ t, step s = .next t ∧
      ({ env := true } : Footprint).Bounds u t ∧ t.env.errors = e :: u.env.errors ∧ t.env.seq = u.env.seq)

/-- R220, D17 (log 6): with a timer agent, a step that runs LD Vx,DT reads a draw `d` with `0 ≤ d ≤ v`, where `v` is the
value last written to DT by the program or the host and not what an earlier draw left; every such `d` is a draw, so nothing
within the bound is shut out; ST is drawn likewise, and a draw does not change the bounds. It holds for every value of the
free draws. That the agent acts at the start of the step is the model's choice (log 23). -/
def Obligations.TimerAgentDrawsUpToTheLastWrittenValue : Prop :=
  (∀ v d : Byte, (∃ free, drawUpTo free v = d) ↔ d.toNat ≤ v.toNat) ∧
  ∀ (s : State) (w : Word) (a n : Nat) (x : RegIdx), s.env.timer = .present n →
    s.timerActs.nextWord = some (w, a) → decode w = .ok (.ldVxDt x) →
    ∃ t, step s = .next t ∧ t.readV x = t.dt ∧ t.dt = drawUpTo (Config.timerDraw n) s.dtTop ∧
      t.st = drawUpTo (Config.timerDraw (n + 1)) s.stTop ∧ t.dtTop = s.dtTop ∧ t.stTop = s.stTop ∧
      t.env.timer = .present (n + 2) ∧ t.i = s.i ∧ t.sp = s.sp ∧ t.mem = s.mem ∧
      (∀ j, j ≠ x → t.readV j = s.readV j)

/-! ## Reset and invariants -/

/-- R40, whole (with R36): every byte of memory is 0 after construction, whatever the registers, and the reserved bytes
keep their value through every step, every error and every host write. -/
def Obligations.MemoryIsZeroAndReservedBytesStay : Prop :=
  (∀ (r : ResetRegs) (a : Nat), (State.construct r).mem.get a = 0) ∧
  (∀ (s t : State) (a : Nat), a < 512 → stateAfter (step s) = some t → t.mem.get a = s.mem.get a) ∧
  (∀ (s t : State) (a b n : Nat), a < 512 → s.hostWrite b n = .ok t → t.mem.get a = s.mem.get a)

/-- R41, R42, R250 (the invariant's form is the model's, log 5): construction leaves the registers the parameter
RESET_REGS gives, any of them, and meets the invariant and the bound on the timers (log 6); `State.reset` is one of the constructed states. -/
def Obligations.ConstructedStatesMeetTheInvariant : Prop :=
  (∀ r : ResetRegs, (State.construct r).Inv ∧ (∀ x, (State.construct r).readV x = r.v[x.toFin]) ∧
    (State.construct r).i = r.i ∧ (State.construct r).pc = r.pc ∧ (State.construct r).sp = r.sp ∧
    (State.construct r).dt = r.dt ∧ (State.construct r).st = r.st ∧ (State.construct r).TimersBounded) ∧
  ∃ r, State.reset = State.construct r

/-- R36, R61, R71 (the canonical form is the model's, log 5): from every state that meets the invariant, a step's next
state, and the state an error or the run's end leaves, meet it. -/
def Obligations.StepKeepsTheInvariant : Prop :=
  ∀ s : State, s.Inv →
    (∀ t, step s = .next t → t.Inv) ∧ (∀ t, stateAfter (step s) = some t → t.Inv)

/-- R65: the host's ports keep the invariant too: no port reaches memory outside the window. The canonical form, the
invariant's other half, is the model's own (log 5). -/
def Obligations.HostPortsKeepTheInvariant : Prop :=
  ∀ s : State, s.Inv →
    (∀ r n, (s.reg8Write r n).Inv) ∧ (∀ r n, (s.reg16Write r n).Inv) ∧
    (∀ a n t, s.hostWrite a n = .ok t → t.Inv) ∧
    (∀ base words t, stateAfter (loadImage base words s) = some t → t.Inv)

/-- R23, R30 to R34, R66 with no timer agent: over any step, SP never changes, and DT, ST, I and memory change only when the
word presented is one of the instructions the spec names. That the program, a word list apart from memory, never changes
is the spec's decision (R76, D20, log 15); that no step changes the kind of sequencer, its ENTRY and BASE and the host's
policy is the model's reading of them as fixed parameters (log 1, 7). -/
def Obligations.OnlyNamedInstructionsChangeState : Prop :=
  ∀ s t : State, s.env.timer = .absent → stateAfter (step s) = some t →
    t.sp = s.sp ∧ t.env.seq.words = s.env.seq.words ∧ t.env.seq.entry = s.env.seq.entry ∧
    t.env.seq.base = s.env.seq.base ∧ t.env.seq.kind = s.env.seq.kind ∧ t.env.policy = s.env.policy ∧
    (t.dt ≠ s.dt ∨ t.dtTop ≠ s.dtTop → ∃ w a x, s.nextWord = some (w, a) ∧ decode w = .ok (.ldDtVx x)) ∧
    (t.st ≠ s.st ∨ t.stTop ≠ s.stTop → ∃ w a x, s.nextWord = some (w, a) ∧ decode w = .ok (.ldStVx x)) ∧
    (t.i ≠ s.i → ∃ w a, s.nextWord = some (w, a) ∧
      ((∃ nnn, decode w = .ok (.ldINnn nnn)) ∨ ∃ x, decode w = .ok (.addIVx x))) ∧
    (t.mem ≠ s.mem → ∃ w a x, s.nextWord = some (w, a) ∧ decode w = .ok (.ldIndVx x))

/-- R210, R213, R217, R218, R255, R256: from a state whose words all decode to instructions which complete in every state, a
step answers a next state with the same words or ends the run normally; so a run from it is safe, however many steps it
has. R226's premise stands in the statement: the host does nothing under (b) meanwhile (`HostSilent`). The next clause says
otherwise, as R226 allows: the host may write any register and any byte of the window before each step. With a silent host
the run is `core.run`. That a normal end counts as safe is the model's choice (log 8), as are the two sequencers and the
timer agent it runs over (log 1, 6), the form of the host's turns (log 16) and their order with the timer agent (log 23). -/
def Obligations.RunsWithoutErrorWordsAreSafe : Prop :=
  (∀ s : State, s.OnlyCompleting →
    (∃ t, step s = .next t ∧ t.env.seq.words = s.env.seq.words) ∨ (∃ t, step s = .fault (.runEnded t))) ∧
  (∀ (host : List (List HostAct)) (s : State), s.OnlyCompleting → HostSilent host → SafeRun host s) ∧
  (∀ (host : List (List HostAct)) (s : State), s.OnlyCompleting →
    (∀ turn ∈ host, ∀ act ∈ turn, act.inWindow = true) → SafeRun host s) ∧
  (∀ (k : Nat) (s : State), runHosted (List.replicate k []) s = core.run k s)

/-! ## Text -/

/-- R106 (that a lone 0 is one digit is derived in the spec): `hex` is `0x` and lower-case digits, most significant first,
without leading zeros, that stand for the number. -/
def Obligations.HexIsLowercaseWithoutLeadingZeros : Prop :=
  ∀ n : Nat, ∃ ds : List Char, hex n = "0x" ++ String.ofList ds ∧
    (∀ c ∈ ds, c ∈ "0123456789abcdef".toList) ∧
    ds.foldl (fun v c => 16 * v + "0123456789abcdef".toList.idxOf c) 0 = n ∧
    (ds.head? = some '0' → n = 0) ∧ ds ≠ [] ∧ (n = 0 → ds = ['0'])

/-- R100, R109 (per-word errors: D22): Disassemble gives one item per word in input order, item k being the k-th word
made into an Instruction at `base + 2*k`, or its decode error. -/
def Obligations.DisassembleGivesOneItemPerWord : Prop :=
  ∀ (words : List Word) (base : Nat), (disassemble words base).length = words.length ∧
    ∀ (k : Nat) (w : Word), words[k]? = some w → (disassemble words base)[k]? = some (make w (base + 2 * k))

/-- R110, whole: over words that all decode, the text is the concatenation of the instructions' Dumps, one line each,
newline-terminated, in input order; and the document's worked example gives its four lines. -/
def Obligations.DisassembleToStringJoinsTheDumps : Prop :=
  (∀ (words : List Word) (base : Nat), (∀ w ∈ words, ∃ i, decode w = .ok i) →
    ∃ inss : List Instruction, disassemble words base = inss.map .ok ∧
      disassembleToString words base = .ok (inss.foldr (fun ins rest => dump ins ++ "\n" ++ rest) "")) ∧
  disassembleToString [0x00E0, 0x610F, 0x620A, 0x8124] 0x200 =
    .ok "0x200 CLS\n0x202 LD V1 0xf\n0x204 LD V2 0xa\n0x206 ADD V1 V2\n"

/-- R105, R107, R108: the Dump text of every row of the table, for every address tag and every operand, and the names of the
sixteen registers. The names VA to VF, VSound, the two timer loads LD VDelay and LD VSound and `nnn` in hexadecimal are the
spec's decision (D21, log 17); `hex` is R106's, of which another statement speaks. -/
def Obligations.DumpTextFollowsTheTable : Prop :=
  (reg 0 = "V0" ∧ reg 1 = "V1" ∧ reg 2 = "V2" ∧ reg 3 = "V3" ∧ reg 4 = "V4" ∧ reg 5 = "V5" ∧ reg 6 = "V6" ∧ reg 7 = "V7" ∧
    reg 8 = "V8" ∧ reg 9 = "V9" ∧ reg 10 = "VA" ∧ reg 11 = "VB" ∧ reg 12 = "VC" ∧ reg 13 = "VD" ∧ reg 14 = "VE" ∧
    reg 15 = "VF") ∧
  ∀ (a : Nat) (x y : RegIdx) (kk : Byte) (nnn : Addr12),
    (dump ⟨.cls, a⟩ = hex a ++ " CLS" ∧
      dump ⟨.ret, a⟩ = hex a ++ " RET" ∧
      dump ⟨.call nnn, a⟩ = hex a ++ " CALL " ++ hex nnn.toNat ∧
      dump ⟨.sys nnn, a⟩ = hex a ++ " SYS " ++ hex nnn.toNat ∧
      dump ⟨.jp nnn, a⟩ = hex a ++ " JP " ++ hex nnn.toNat ∧
      dump ⟨.seVxKk x kk, a⟩ = hex a ++ " SE " ++ reg x ++ " " ++ hex kk.toNat ∧
      dump ⟨.seVxVy x y, a⟩ = hex a ++ " SE " ++ reg x ++ " " ++ reg y ∧
      dump ⟨.sneVxKk x kk, a⟩ = hex a ++ " SNE " ++ reg x ++ " " ++ hex kk.toNat ∧
      dump ⟨.sneVxVy x y, a⟩ = hex a ++ " SNE " ++ reg x ++ " " ++ reg y) ∧
    (dump ⟨.ldVxKk x kk, a⟩ = hex a ++ " LD " ++ reg x ++ " " ++ hex kk.toNat ∧
      dump ⟨.ldVxVy x y, a⟩ = hex a ++ " LD " ++ reg x ++ " " ++ reg y ∧
      dump ⟨.ldINnn nnn, a⟩ = hex a ++ " LD I " ++ hex nnn.toNat ∧
      dump ⟨.ldVxDt x, a⟩ = hex a ++ " LD " ++ reg x ++ " VDelay" ∧
      dump ⟨.ldDtVx x, a⟩ = hex a ++ " LD VDelay " ++ reg x ∧
      dump ⟨.ldStVx x, a⟩ = hex a ++ " LD VSound " ++ reg x ∧
      dump ⟨.ldIndVx x, a⟩ = hex a ++ " LD [I] " ++ reg x ∧
      dump ⟨.ldVxInd x, a⟩ = hex a ++ " LD " ++ reg x ++ " [I]") ∧
    (dump ⟨.addVxKk x kk, a⟩ = hex a ++ " ADD " ++ reg x ++ " " ++ hex kk.toNat ∧
      dump ⟨.addVxVy x y, a⟩ = hex a ++ " ADD " ++ reg x ++ " " ++ reg y ∧
      dump ⟨.addIVx x, a⟩ = hex a ++ " ADD I " ++ reg x ∧
      dump ⟨.orVxVy x y, a⟩ = hex a ++ " OR " ++ reg x ++ " " ++ reg y ∧
      dump ⟨.andVxVy x y, a⟩ = hex a ++ " AND " ++ reg x ++ " " ++ reg y ∧
      dump ⟨.xorVxVy x y, a⟩ = hex a ++ " XOR " ++ reg x ++ " " ++ reg y ∧
      dump ⟨.subVxVy x y, a⟩ = hex a ++ " SUB " ++ reg x ++ " " ++ reg y ∧
      dump ⟨.subnVxVy x y, a⟩ = hex a ++ " SUBN " ++ reg x ++ " " ++ reg y ∧
      dump ⟨.shrVxVy x y, a⟩ = hex a ++ " SHR " ++ reg x ++ " " ++ reg y ∧
      dump ⟨.shlVxVy x y, a⟩ = hex a ++ " SHL " ++ reg x ++ " " ++ reg y)

/-! ## The timers' bound -/

/-- R220 (log 6): neither timer ever exceeds the value last written to it by the program or the host: every step keeps this,
with a timer agent or without, whatever it draws and whatever the outcome, and so does every act of the host. -/
def Obligations.TimersNeverExceedTheirLastWrittenValue : Prop :=
  ∀ s : State, s.TimersBounded →
    (∀ t, stateAfter (step s) = some t → t.TimersBounded) ∧
    (∀ act t, stateAfter (s.hostAct act) = some t → t.TimersBounded)
end

