-- ==== Sys2Proof/Laws/State.lean ====
section
/-! SUPPORT. One lemma per field per update of State, and reading V registers through them, so that no later proof
unfolds a record update. -/

namespace Sys2Proof.Machine

/-! ### writeV -/

@[simp] theorem State.writeV_i (s : State) (x : RegIdx) (b : Byte) : (s.writeV x b).i = s.i := rfl
@[simp] theorem State.writeV_pc (s : State) (x : RegIdx) (b : Byte) : (s.writeV x b).pc = s.pc := rfl
@[simp] theorem State.writeV_sp (s : State) (x : RegIdx) (b : Byte) : (s.writeV x b).sp = s.sp := rfl
@[simp] theorem State.writeV_dt (s : State) (x : RegIdx) (b : Byte) : (s.writeV x b).dt = s.dt := rfl
@[simp] theorem State.writeV_st (s : State) (x : RegIdx) (b : Byte) : (s.writeV x b).st = s.st := rfl
@[simp] theorem State.writeV_mem (s : State) (x : RegIdx) (b : Byte) : (s.writeV x b).mem = s.mem := rfl
@[simp] theorem State.writeV_dtTop (s : State) (x : RegIdx) (b : Byte) : (s.writeV x b).dtTop = s.dtTop := rfl
@[simp] theorem State.writeV_stTop (s : State) (x : RegIdx) (b : Byte) : (s.writeV x b).stTop = s.stTop := rfl
@[simp] theorem State.writeV_env (s : State) (x : RegIdx) (b : Byte) : (s.writeV x b).env = s.env := rfl

/-! ### setI -/

@[simp] theorem State.setI_v (s : State) (w : Word) : (s.setI w).v = s.v := rfl
@[simp] theorem State.setI_i (s : State) (w : Word) : (s.setI w).i = w := rfl
@[simp] theorem State.setI_pc (s : State) (w : Word) : (s.setI w).pc = s.pc := rfl
@[simp] theorem State.setI_sp (s : State) (w : Word) : (s.setI w).sp = s.sp := rfl
@[simp] theorem State.setI_dt (s : State) (w : Word) : (s.setI w).dt = s.dt := rfl
@[simp] theorem State.setI_st (s : State) (w : Word) : (s.setI w).st = s.st := rfl
@[simp] theorem State.setI_mem (s : State) (w : Word) : (s.setI w).mem = s.mem := rfl
@[simp] theorem State.setI_dtTop (s : State) (w : Word) : (s.setI w).dtTop = s.dtTop := rfl
@[simp] theorem State.setI_stTop (s : State) (w : Word) : (s.setI w).stTop = s.stTop := rfl
@[simp] theorem State.setI_env (s : State) (w : Word) : (s.setI w).env = s.env := rfl
@[simp] theorem State.readV_setI (s : State) (w : Word) (j : RegIdx) : (s.setI w).readV j = s.readV j := rfl

/-! ### setPc -/

@[simp] theorem State.setPc_v (s : State) (w : Word) : (s.setPc w).v = s.v := rfl
@[simp] theorem State.setPc_i (s : State) (w : Word) : (s.setPc w).i = s.i := rfl
@[simp] theorem State.setPc_pc (s : State) (w : Word) : (s.setPc w).pc = w := rfl
@[simp] theorem State.setPc_sp (s : State) (w : Word) : (s.setPc w).sp = s.sp := rfl
@[simp] theorem State.setPc_dt (s : State) (w : Word) : (s.setPc w).dt = s.dt := rfl
@[simp] theorem State.setPc_st (s : State) (w : Word) : (s.setPc w).st = s.st := rfl
@[simp] theorem State.setPc_mem (s : State) (w : Word) : (s.setPc w).mem = s.mem := rfl
@[simp] theorem State.setPc_dtTop (s : State) (w : Word) : (s.setPc w).dtTop = s.dtTop := rfl
@[simp] theorem State.setPc_stTop (s : State) (w : Word) : (s.setPc w).stTop = s.stTop := rfl
@[simp] theorem State.setPc_env (s : State) (w : Word) : (s.setPc w).env = s.env := rfl
@[simp] theorem State.readV_setPc (s : State) (w : Word) (j : RegIdx) : (s.setPc w).readV j = s.readV j := rfl

/-! ### setSp -/

@[simp] theorem State.setSp_v (s : State) (b : Byte) : (s.setSp b).v = s.v := rfl
@[simp] theorem State.setSp_i (s : State) (b : Byte) : (s.setSp b).i = s.i := rfl
@[simp] theorem State.setSp_pc (s : State) (b : Byte) : (s.setSp b).pc = s.pc := rfl
@[simp] theorem State.setSp_sp (s : State) (b : Byte) : (s.setSp b).sp = b := rfl
@[simp] theorem State.setSp_dt (s : State) (b : Byte) : (s.setSp b).dt = s.dt := rfl
@[simp] theorem State.setSp_st (s : State) (b : Byte) : (s.setSp b).st = s.st := rfl
@[simp] theorem State.setSp_mem (s : State) (b : Byte) : (s.setSp b).mem = s.mem := rfl
@[simp] theorem State.setSp_dtTop (s : State) (b : Byte) : (s.setSp b).dtTop = s.dtTop := rfl
@[simp] theorem State.setSp_stTop (s : State) (b : Byte) : (s.setSp b).stTop = s.stTop := rfl
@[simp] theorem State.setSp_env (s : State) (b : Byte) : (s.setSp b).env = s.env := rfl
@[simp] theorem State.readV_setSp (s : State) (b : Byte) (j : RegIdx) : (s.setSp b).readV j = s.readV j := rfl

/-! ### setDt -/

@[simp] theorem State.setDt_v (s : State) (b : Byte) : (s.setDt b).v = s.v := rfl
@[simp] theorem State.setDt_i (s : State) (b : Byte) : (s.setDt b).i = s.i := rfl
@[simp] theorem State.setDt_pc (s : State) (b : Byte) : (s.setDt b).pc = s.pc := rfl
@[simp] theorem State.setDt_sp (s : State) (b : Byte) : (s.setDt b).sp = s.sp := rfl
@[simp] theorem State.setDt_dt (s : State) (b : Byte) : (s.setDt b).dt = b := rfl
@[simp] theorem State.setDt_st (s : State) (b : Byte) : (s.setDt b).st = s.st := rfl
@[simp] theorem State.setDt_mem (s : State) (b : Byte) : (s.setDt b).mem = s.mem := rfl
@[simp] theorem State.setDt_dtTop (s : State) (b : Byte) : (s.setDt b).dtTop = b := rfl
@[simp] theorem State.setDt_stTop (s : State) (b : Byte) : (s.setDt b).stTop = s.stTop := rfl
@[simp] theorem State.setDt_env (s : State) (b : Byte) : (s.setDt b).env = s.env := rfl
@[simp] theorem State.readV_setDt (s : State) (b : Byte) (j : RegIdx) : (s.setDt b).readV j = s.readV j := rfl

/-! ### setSt -/

@[simp] theorem State.setSt_v (s : State) (b : Byte) : (s.setSt b).v = s.v := rfl
@[simp] theorem State.setSt_i (s : State) (b : Byte) : (s.setSt b).i = s.i := rfl
@[simp] theorem State.setSt_pc (s : State) (b : Byte) : (s.setSt b).pc = s.pc := rfl
@[simp] theorem State.setSt_sp (s : State) (b : Byte) : (s.setSt b).sp = s.sp := rfl
@[simp] theorem State.setSt_dt (s : State) (b : Byte) : (s.setSt b).dt = s.dt := rfl
@[simp] theorem State.setSt_st (s : State) (b : Byte) : (s.setSt b).st = b := rfl
@[simp] theorem State.setSt_mem (s : State) (b : Byte) : (s.setSt b).mem = s.mem := rfl
@[simp] theorem State.setSt_dtTop (s : State) (b : Byte) : (s.setSt b).dtTop = s.dtTop := rfl
@[simp] theorem State.setSt_stTop (s : State) (b : Byte) : (s.setSt b).stTop = b := rfl
@[simp] theorem State.setSt_env (s : State) (b : Byte) : (s.setSt b).env = s.env := rfl
@[simp] theorem State.readV_setSt (s : State) (b : Byte) (j : RegIdx) : (s.setSt b).readV j = s.readV j := rfl

/-! ### tick -/

@[simp] theorem State.tick_v (s : State) (d t : Byte) : (s.tick d t).v = s.v := rfl
@[simp] theorem State.tick_i (s : State) (d t : Byte) : (s.tick d t).i = s.i := rfl
@[simp] theorem State.tick_pc (s : State) (d t : Byte) : (s.tick d t).pc = s.pc := rfl
@[simp] theorem State.tick_sp (s : State) (d t : Byte) : (s.tick d t).sp = s.sp := rfl
@[simp] theorem State.tick_dt (s : State) (d t : Byte) : (s.tick d t).dt = d := rfl
@[simp] theorem State.tick_st (s : State) (d t : Byte) : (s.tick d t).st = t := rfl
@[simp] theorem State.tick_mem (s : State) (d t : Byte) : (s.tick d t).mem = s.mem := rfl
@[simp] theorem State.tick_dtTop (s : State) (d t : Byte) : (s.tick d t).dtTop = s.dtTop := rfl
@[simp] theorem State.tick_stTop (s : State) (d t : Byte) : (s.tick d t).stTop = s.stTop := rfl
@[simp] theorem State.tick_env (s : State) (d t : Byte) : (s.tick d t).env = s.env := rfl
@[simp] theorem State.readV_tick (s : State) (d t : Byte) (j : RegIdx) : (s.tick d t).readV j = s.readV j := rfl

/-! ### setMem -/

@[simp] theorem State.setMem_v (s : State) (m : Memory) : (s.setMem m).v = s.v := rfl
@[simp] theorem State.setMem_i (s : State) (m : Memory) : (s.setMem m).i = s.i := rfl
@[simp] theorem State.setMem_pc (s : State) (m : Memory) : (s.setMem m).pc = s.pc := rfl
@[simp] theorem State.setMem_sp (s : State) (m : Memory) : (s.setMem m).sp = s.sp := rfl
@[simp] theorem State.setMem_dt (s : State) (m : Memory) : (s.setMem m).dt = s.dt := rfl
@[simp] theorem State.setMem_st (s : State) (m : Memory) : (s.setMem m).st = s.st := rfl
@[simp] theorem State.setMem_mem (s : State) (m : Memory) : (s.setMem m).mem = m := rfl
@[simp] theorem State.setMem_dtTop (s : State) (m : Memory) : (s.setMem m).dtTop = s.dtTop := rfl
@[simp] theorem State.setMem_stTop (s : State) (m : Memory) : (s.setMem m).stTop = s.stTop := rfl
@[simp] theorem State.setMem_env (s : State) (m : Memory) : (s.setMem m).env = s.env := rfl
@[simp] theorem State.readV_setMem (s : State) (m : Memory) (j : RegIdx) : (s.setMem m).readV j = s.readV j := rfl

@[simp] theorem State.setMem_setMem (s : State) (m n : Memory) : (s.setMem m).setMem n = s.setMem n := rfl

/-! ### setEnv -/

@[simp] theorem State.setEnv_v (s : State) (e : Surroundings) : (s.setEnv e).v = s.v := rfl
@[simp] theorem State.setEnv_i (s : State) (e : Surroundings) : (s.setEnv e).i = s.i := rfl
@[simp] theorem State.setEnv_pc (s : State) (e : Surroundings) : (s.setEnv e).pc = s.pc := rfl
@[simp] theorem State.setEnv_sp (s : State) (e : Surroundings) : (s.setEnv e).sp = s.sp := rfl
@[simp] theorem State.setEnv_dt (s : State) (e : Surroundings) : (s.setEnv e).dt = s.dt := rfl
@[simp] theorem State.setEnv_st (s : State) (e : Surroundings) : (s.setEnv e).st = s.st := rfl
@[simp] theorem State.setEnv_mem (s : State) (e : Surroundings) : (s.setEnv e).mem = s.mem := rfl
@[simp] theorem State.setEnv_dtTop (s : State) (e : Surroundings) : (s.setEnv e).dtTop = s.dtTop := rfl
@[simp] theorem State.setEnv_stTop (s : State) (e : Surroundings) : (s.setEnv e).stTop = s.stTop := rfl
@[simp] theorem State.setEnv_env (s : State) (e : Surroundings) : (s.setEnv e).env = e := rfl
@[simp] theorem State.readV_setEnv (s : State) (e : Surroundings) (j : RegIdx) : (s.setEnv e).readV j = s.readV j := rfl

/-! ### Reading a V register back -/

/-- A write to one V register is seen there and nowhere else. -/
@[simp] theorem State.readV_writeV (s : State) (x j : RegIdx) (b : Byte) :
    (s.writeV x b).readV j = if j = x then b else s.readV j := by
  unfold State.readV State.writeV
  by_cases h : j = x
  · subst h; simp
  · have hne : (x.toFin : Nat) ≠ j.toFin := fun e => h (BitVec.eq_of_toNat_eq e.symm)
    rw [if_neg h]
    exact Vector.getElem_set_ne x.toFin.isLt j.toFin.isLt hne

/-- Two register files that read alike at every index are equal. -/
theorem State.v_ext (s t : State) (h : ∀ j, t.readV j = s.readV j) : t.v = s.v := by
  apply Vector.ext
  intro k hk
  have := h (BitVec.ofFin ⟨k, hk⟩)
  exact this

/-! ### Skips and flagged writes -/

@[simp] theorem State.skip_eq (s : State) : s.skip = s.setPc (s.pc + 1) := rfl

/-- What a conditional skip does to PC. -/
@[simp] theorem State.skipIf_pc (s : State) (c : Bool) : (s.skipIf c).pc = if c then s.pc + 1 else s.pc := by
  cases c <;> rfl

@[simp] theorem State.skipIf_v (s : State) (c : Bool) : (s.skipIf c).v = s.v := by cases c <;> rfl
@[simp] theorem State.skipIf_i (s : State) (c : Bool) : (s.skipIf c).i = s.i := by cases c <;> rfl
@[simp] theorem State.skipIf_sp (s : State) (c : Bool) : (s.skipIf c).sp = s.sp := by cases c <;> rfl
@[simp] theorem State.skipIf_dt (s : State) (c : Bool) : (s.skipIf c).dt = s.dt := by cases c <;> rfl
@[simp] theorem State.skipIf_st (s : State) (c : Bool) : (s.skipIf c).st = s.st := by cases c <;> rfl
@[simp] theorem State.skipIf_mem (s : State) (c : Bool) : (s.skipIf c).mem = s.mem := by cases c <;> rfl
@[simp] theorem State.skipIf_dtTop (s : State) (c : Bool) : (s.skipIf c).dtTop = s.dtTop := by cases c <;> rfl
@[simp] theorem State.skipIf_stTop (s : State) (c : Bool) : (s.skipIf c).stTop = s.stTop := by cases c <;> rfl
@[simp] theorem State.skipIf_env (s : State) (c : Bool) : (s.skipIf c).env = s.env := by cases c <;> rfl
@[simp] theorem State.readV_skipIf (s : State) (c : Bool) (j : RegIdx) : (s.skipIf c).readV j = s.readV j := by
  cases c <;> rfl

/-- The flag goes to VF, then the result to Vx (R189). -/
@[simp] theorem State.readV_writeFlagged (s : State) (x j : RegIdx) (r : AluOut) :
    (s.writeFlagged x r).readV j = if j = x then r.value else if j = vf then r.flag else s.readV j := by
  simp [State.writeFlagged]

@[simp] theorem State.writeFlagged_i (s : State) (x : RegIdx) (r : AluOut) : (s.writeFlagged x r).i = s.i := rfl
@[simp] theorem State.writeFlagged_pc (s : State) (x : RegIdx) (r : AluOut) : (s.writeFlagged x r).pc = s.pc := rfl
@[simp] theorem State.writeFlagged_sp (s : State) (x : RegIdx) (r : AluOut) : (s.writeFlagged x r).sp = s.sp := rfl
@[simp] theorem State.writeFlagged_dt (s : State) (x : RegIdx) (r : AluOut) : (s.writeFlagged x r).dt = s.dt := rfl
@[simp] theorem State.writeFlagged_st (s : State) (x : RegIdx) (r : AluOut) : (s.writeFlagged x r).st = s.st := rfl
@[simp] theorem State.writeFlagged_mem (s : State) (x : RegIdx) (r : AluOut) : (s.writeFlagged x r).mem = s.mem := rfl
@[simp] theorem State.writeFlagged_dtTop (s : State) (x : RegIdx) (r : AluOut) : (s.writeFlagged x r).dtTop = s.dtTop := rfl
@[simp] theorem State.writeFlagged_stTop (s : State) (x : RegIdx) (r : AluOut) : (s.writeFlagged x r).stTop = s.stTop := rfl
@[simp] theorem State.writeFlagged_env (s : State) (x : RegIdx) (r : AluOut) : (s.writeFlagged x r).env = s.env := rfl

end Sys2Proof.Machine
end

