-- ==== Sys2Proof/Laws/Memory.lean ====
section
/-! SUPPORT. The laws of memory cells and of the controller: what a write changes, and that the canonical form and
the window are kept. -/

namespace Sys2Proof.Machine

/-! ### Cells -/

@[simp] theorem Memory.get_nil (a : Nat) : Memory.get [] a = 0 := rfl

@[simp] theorem Memory.get_cons (c : Host.Cell) (m : Memory) (a : Nat) :
    Memory.get (c :: m) a = if c.1 = a then c.2 else Memory.get m a := rfl

/-- An address that no entry lists reads as 0. -/
theorem Memory.get_unlisted {m : Memory} {a : Nat} (h : ∀ c ∈ m, c.1 ≠ a) : m.get a = 0 := by
  induction m with
  | nil => rfl
  | cons c m ih =>
    have hc := h c (by simp)
    simp only [Memory.get_cons, if_neg hc]
    exact ih fun d hd => h d (by simp [hd])

/-- An entry of a canonical memory is what its address reads as. -/
theorem Memory.get_listed {m : Memory} (hp : m.Pairwise (fun c d => c.1 < d.1)) {c : Host.Cell} (hc : c ∈ m) :
    m.get c.1 = c.2 := by
  induction m with
  | nil => cases hc
  | cons d m ih =>
    rw [List.pairwise_cons] at hp
    rcases List.mem_cons.1 hc with rfl | hm
    · simp
    · have : d.1 ≠ c.1 := Nat.ne_of_lt (hp.1 c hm)
      simp [this, ih hp.2 hm]

/-- Writing a cell leaves every other cell alone, in any memory. -/
theorem Memory.get_set_other (m : Memory) {a b : Nat} (v : Byte) (h : b ≠ a) : (m.set a v).get b = m.get b := by
  have hba : ¬ a = b := fun e => h e.symm
  induction m with
  | nil => simp only [Memory.set, Memory.put]; split <;> simp [hba]
  | cons c m ih =>
    simp only [Memory.set, Memory.put]
    split
    · split <;> simp [hba]
    · split
      · rename_i hac
        have : ¬ c.1 = b := by omega
        split <;> simp [hba, this]
      · simp [ih]

/-- Writing a cell of a canonical memory is seen there. -/
theorem Memory.get_set_same {m : Memory} (hp : m.Pairwise (fun c d => c.1 < d.1)) (a : Nat) (v : Byte) :
    (m.set a v).get a = v := by
  induction m with
  | nil => simp only [Memory.set, Memory.put]; split <;> simp_all
  | cons c m ih =>
    rw [List.pairwise_cons] at hp
    simp only [Memory.set, Memory.put]
    split
    · rename_i hac
      split
      · rename_i hv
        rw [Memory.get_unlisted, hv]
        intro d hd
        rcases List.mem_cons.1 hd with rfl | hm
        · omega
        · have := hp.1 d hm; omega
      · simp
    · split
      · rename_i hac
        split
        · rename_i hv
          rw [Memory.get_unlisted, hv]
          intro d hd
          have := hp.1 d hd; omega
        · simp
      · rename_i hac
        have : ¬ c.1 = a := fun e => hac e.symm
        simp [this, ih hp.2]

/-- Every entry after a write is the written one or was there before. -/
theorem Memory.mem_set {m : Memory} {a : Nat} {v : Byte} {c : Host.Cell} (h : c ∈ m.set a v) :
    (c = (a, v) ∧ v ≠ 0) ∨ c ∈ m := by
  induction m with
  | nil =>
    simp only [Memory.set, Memory.put] at h
    split at h <;> simp_all
  | cons d m ih =>
    simp only [Memory.set, Memory.put] at h
    split at h
    · split at h
      · exact .inr h
      · rcases List.mem_cons.1 h with rfl | h
        · exact .inl ⟨rfl, by assumption⟩
        · exact .inr h
    · split at h
      · split at h
        · exact .inr (List.mem_cons_of_mem _ h)
        · rcases List.mem_cons.1 h with rfl | h
          · exact .inl ⟨rfl, by assumption⟩
          · exact .inr (List.mem_cons_of_mem _ h)
      · rcases List.mem_cons.1 h with rfl | h
        · exact .inr (by simp)
        · exact (ih h).imp id (List.mem_cons_of_mem _)

/-- A write keeps the canonical form. -/
theorem Memory.set_wf {m : Memory} (h : m.wf) (a : Nat) (v : Byte) : Memory.wf (m.set a v) := by
  refine ⟨?_, fun c hc => ?_⟩
  · obtain ⟨hp, -⟩ := h
    induction m with
    | nil => simp only [Memory.set, Memory.put]; split <;> simp
    | cons d m ih =>
      have hp' := List.pairwise_cons.1 hp
      simp only [Memory.set, Memory.put]
      split
      · rename_i had
        split
        · exact hp
        · refine List.pairwise_cons.2 ⟨fun c hc => ?_, hp⟩
          rcases List.mem_cons.1 hc with rfl | hm
          · exact had
          · exact Nat.lt_trans had (hp'.1 c hm)
      · split
        · rename_i had
          split
          · exact hp'.2
          · exact List.pairwise_cons.2 ⟨fun c hc => had ▸ hp'.1 c hc, hp'.2⟩
        · rename_i h1 h2
          refine List.pairwise_cons.2 ⟨fun c hc => ?_, ih hp'.2⟩
          rcases Memory.mem_set hc with ⟨rfl, -⟩ | hm
          · simp only; omega
          · exact hp'.1 c hm
  · rcases Memory.mem_set hc with ⟨rfl, hv⟩ | hm
    · exact hv
    · exact h.2 c hm

/-- The memory of every constructed state is canonical; reset is one of them. -/
theorem construct_mem_wf (r : ResetRegs) : (State.construct r).mem.wf := ⟨List.Pairwise.nil, by simp [State.construct]⟩

theorem reset_mem_wf : State.reset.mem.wf := construct_mem_wf _

/-! ### The controller -/

theorem isValidAddress_iff (a : Nat) : isValidAddress a = true ↔ 512 ≤ a ∧ a < 4096 := by
  simp only [isValidAddress, Bool.and_eq_true, decide_eq_true_eq]
  rfl

/-- Everything a controller read can do (R62). -/
theorem State.memRead_cases (s : State) (a : Nat) :
    (isValidAddress a = true ∧ s.memRead a = .ok (s.mem.get a)) ∨
    (isValidAddress a = false ∧ s.memRead a = .error (.addressRange a)) := by
  cases h : isValidAddress a <;> simp [State.memRead, h]

/-- Everything a controller write can do (R63). -/
theorem State.memWrite_cases (s : State) (a : Nat) (b : Byte) :
    (isValidAddress a = true ∧ s.memWrite a b = .ok (s.setMem (s.mem.set a b))) ∨
    (isValidAddress a = false ∧ s.memWrite a b = .error (.addressRange a)) := by
  cases h : isValidAddress a <;> simp [State.memWrite, h]

/-- A valid write keeps the canonical form and the window. -/
theorem Memory.set_window {m : Memory} {a : Nat} (ha : isValidAddress a = true) (v : Byte)
    (h : ∀ c ∈ m, isValidAddress c.1 = true) : ∀ c ∈ m.set a v, isValidAddress c.1 = true := by
  intro c hc
  rcases Memory.mem_set hc with ⟨rfl, -⟩ | hm
  · exact ha
  · exact h c hm

end Sys2Proof.Machine
end

