-- ==== Sys2Proof/Laws/Block.lean ====
section
/-! SUPPORT. What the two block loops can do, once: the outcome of a store block and of a load block, and how a block
splits in two (spec/41_load_store.md R166, R167). -/

namespace Sys2Proof.Machine

/-! ### The indices -/

/-- The indices of a block are exactly `0..=x` (R7). -/
theorem mem_blockIndices (x j : RegIdx) : j ∈ blockIndices x ↔ j.toNat ≤ x.toNat := by
  simp only [blockIndices, List.mem_map, List.mem_range]
  constructor
  · rintro ⟨n, hn, rfl⟩
    rw [BitVec.toNat_ofNat]
    exact Nat.le_trans (Nat.mod_le _ _) (by omega)
  · intro h
    exact ⟨j.toNat, by omega, by simp⟩

/-- No index comes twice. -/
theorem blockIndices_nodup (x : RegIdx) : (blockIndices x).Nodup := by
  refine (List.nodup_range).map_on ?_
  intro a ha b hb h
  have := congrArg BitVec.toNat h
  have hx : x.toNat < 16 := x.isLt
  simp only [List.mem_range] at ha hb
  rw [BitVec.toNat_ofNat, BitVec.toNat_ofNat, Nat.mod_eq_of_lt, Nat.mod_eq_of_lt] at this <;> omega

/-- Different indices have different addresses. -/
theorem State.blockAddr_inj (s : State) {j k : RegIdx} (h : s.blockAddr j = s.blockAddr k) : j = k := by
  apply BitVec.eq_of_toNat_eq
  unfold State.blockAddr at h
  omega

@[simp] theorem State.blockAddr_setMem (s : State) (m : Memory) (j : RegIdx) :
    (s.setMem m).blockAddr j = s.blockAddr j := rfl

@[simp] theorem State.blockAddr_writeV (s : State) (x j : RegIdx) (b : Byte) :
    (s.writeV x b).blockAddr j = s.blockAddr j := rfl

/-! ### Store block -/

theorem storeBlock_cons (j : RegIdx) (js : List RegIdx) (s : State) :
    storeBlock (j :: js) s =
      if isValidAddress (s.blockAddr j) then
        storeBlock js (s.setMem (s.mem.set (s.blockAddr j) (s.readV j)))
      else raise (.addressRange (s.blockAddr j)) s := by
  rcases s.memWrite_cases (s.blockAddr j) (s.readV j) with ⟨h, hw⟩ | ⟨h, hw⟩ <;> simp [storeBlock, hw, h]

/-- What holds between a memory and the memory after some of a block's stores: only valid addresses of the block differ. -/
structure StoredOnly (s : State) (js : List RegIdx) (m : Memory) : Prop where
  other  : ∀ b, (∀ j ∈ js, isValidAddress (s.blockAddr j) = true → s.blockAddr j ≠ b) → m.get b = s.mem.get b
  wf     : s.mem.wf → m.wf
  window : (∀ c ∈ s.mem, isValidAddress c.1 = true) → ∀ c ∈ m, isValidAddress c.1 = true

/-- Everything a store block can do: only memory changes, only at the block's valid addresses; it completes when all of
them are valid, and otherwise raises for one that is not. -/
theorem storeBlock_outcome (js : List RegIdx) (s : State) :
    ∃ m, StoredOnly s js m ∧
      (((∀ j ∈ js, isValidAddress (s.blockAddr j) = true) ∧ storeBlock js s = .next (s.setMem m)) ∨
       (∃ j ∈ js, isValidAddress (s.blockAddr j) = false ∧
          storeBlock js s = raise (.addressRange (s.blockAddr j)) (s.setMem m))) := by
  induction js generalizing s with
  | nil => exact ⟨s.mem, ⟨fun _ _ => rfl, id, id⟩, .inl ⟨by simp, rfl⟩⟩
  | cons j js ih =>
    rw [storeBlock_cons]
    cases hv : isValidAddress (s.blockAddr j) with
    | false => exact ⟨s.mem, ⟨fun _ _ => rfl, id, id⟩, .inr ⟨j, by simp, hv, by simp; rfl⟩⟩
    | true =>
      obtain ⟨m, hm, h⟩ := ih (s.setMem (s.mem.set (s.blockAddr j) (s.readV j)))
      have hm' : StoredOnly s (j :: js) m := by
        refine ⟨fun b hb => ?_, fun hw => hm.wf (Memory.set_wf hw _ _), fun hw => hm.window (Memory.set_window hv _ hw)⟩
        rw [hm.other b fun k hk => hb k (by simp [hk]), State.setMem_mem,
          Memory.get_set_other _ _ fun e => hb j (by simp) hv e.symm]
      refine ⟨m, hm', h.imp ?_ ?_⟩
      · rintro ⟨h1, h2⟩
        exact ⟨by simpa [hv] using h1, by simpa using h2⟩
      · rintro ⟨k, hk, h1, h2⟩
        exact ⟨k, by simp [hk], by simpa using h1, by simpa using h2⟩

/-- A completed prefix of a store block hands its state to the rest. -/
theorem storeBlock_append {js : List RegIdx} (ks : List RegIdx) {s t : State} (h : storeBlock js s = .next t) :
    storeBlock (js ++ ks) s = storeBlock ks t := by
  induction js generalizing s with
  | nil => simp only [storeBlock, Host.Outcome.next.injEq] at h; subst h; rfl
  | cons j js ih =>
    rw [List.cons_append, storeBlock_cons]
    rw [storeBlock_cons] at h
    split at h
    · rename_i hv; rw [if_pos hv]; exact ih h
    · simp [raise] at h

/-- Where a store block stops: the indices before the first invalid address are stored, the error carries that address, and
nothing after it is looked at (R214). -/
theorem storeBlock_stops {js : List RegIdx} {k : RegIdx} (ks : List RegIdx) {s : State}
    (hv : ∀ j ∈ js, isValidAddress (s.blockAddr j) = true) (hk : isValidAddress (s.blockAddr k) = false) :
    ∃ m, StoredOnly s js m ∧ storeBlock js s = .next (s.setMem m) ∧
      storeBlock (js ++ k :: ks) s = raise (.addressRange (s.blockAddr k)) (s.setMem m) := by
  obtain ⟨m, hm, ⟨-, h⟩ | ⟨j, hj, hb, -⟩⟩ := storeBlock_outcome js s
  · refine ⟨m, hm, h, ?_⟩
    rw [storeBlock_append _ h, storeBlock_cons, State.blockAddr_setMem, if_neg (by simp [hk])]
  · rw [hv j hj] at hb; cases hb

/-- After a completed store block over a canonical memory, every byte of the block holds its register. -/
theorem storeBlock_stored {js : List RegIdx} {s t : State} (hd : js.Nodup) (hw : s.mem.wf)
    (h : storeBlock js s = .next t) : ∀ j ∈ js, t.mem.get (s.blockAddr j) = s.readV j := by
  induction js generalizing s with
  | nil => simp
  | cons j js ih =>
    rw [storeBlock_cons] at h
    rw [List.nodup_cons] at hd
    split at h
    · intro k hk
      rcases List.mem_cons.1 hk with rfl | hk
      · obtain ⟨m, hm, hm'⟩ := storeBlock_outcome js (s.setMem (s.mem.set (s.blockAddr k) (s.readV k)))
        rcases hm' with ⟨-, e⟩ | ⟨_, -, -, e⟩
        · rw [e] at h
          simp only [Host.Outcome.next.injEq] at h
          subst h
          simp only [State.setMem_mem]
          rw [hm.other]
          · exact Memory.get_set_same hw.1 _ _
          · intro i hi _ e
            rw [State.blockAddr_setMem] at e
            exact hd.1 (s.blockAddr_inj e ▸ hi)
        · rw [e] at h; simp [raise] at h
      · exact ih hd.2 (Memory.set_wf hw _ _) h k hk
    · simp [raise] at h

/-! ### Load block -/

theorem loadBlock_cons (j : RegIdx) (js : List RegIdx) (s : State) :
    loadBlock (j :: js) s =
      if isValidAddress (s.blockAddr j) then loadBlock js (s.writeV j (s.mem.get (s.blockAddr j)))
      else raise (.addressRange (s.blockAddr j)) s := by
  rcases s.memRead_cases (s.blockAddr j) with ⟨h, hw⟩ | ⟨h, hw⟩ <;> simp [loadBlock, hw, h]

/-- `t` is `s` but for V registers among `js`. -/
structure LoadedOnly (s : State) (js : List RegIdx) (t : State) : Prop where
  i   : t.i = s.i
  pc  : t.pc = s.pc
  sp  : t.sp = s.sp
  dt  : t.dt = s.dt
  st  : t.st = s.st
  mem : t.mem = s.mem
  dtTop : t.dtTop = s.dtTop
  stTop : t.stTop = s.stTop
  env : t.env = s.env
  other : ∀ j, j ∉ js → t.readV j = s.readV j

/-- Everything a load block can do: only V registers of the block change; it completes when all addresses are
valid, and otherwise raises for one that is not. -/
theorem loadBlock_outcome (js : List RegIdx) (s : State) :
    ∃ t, LoadedOnly s js t ∧
      (((∀ j ∈ js, isValidAddress (s.blockAddr j) = true) ∧ loadBlock js s = .next t) ∨
       (∃ j ∈ js, isValidAddress (s.blockAddr j) = false ∧
          loadBlock js s = raise (.addressRange (s.blockAddr j)) t)) := by
  induction js generalizing s with
  | nil => exact ⟨s, ⟨rfl, rfl, rfl, rfl, rfl, rfl, rfl, rfl, rfl, fun _ _ => rfl⟩, .inl ⟨by simp, rfl⟩⟩
  | cons j js ih =>
    rw [loadBlock_cons]
    cases hv : isValidAddress (s.blockAddr j) with
    | false =>
      exact ⟨s, ⟨rfl, rfl, rfl, rfl, rfl, rfl, rfl, rfl, rfl, fun _ _ => rfl⟩, .inr ⟨j, by simp, hv, by simp⟩⟩
    | true =>
      obtain ⟨t, ht, h⟩ := ih (s.writeV j (s.mem.get (s.blockAddr j)))
      have ht' : LoadedOnly s (j :: js) t := by
        refine ⟨ht.i, ht.pc, ht.sp, ht.dt, ht.st, ht.mem, ht.dtTop, ht.stTop, ht.env, fun k hk => ?_⟩
        rw [List.mem_cons, not_or] at hk
        rw [ht.other k hk.2, State.readV_writeV, if_neg hk.1]
      refine ⟨t, ht', h.imp ?_ ?_⟩
      · rintro ⟨h1, h2⟩
        exact ⟨by simpa [hv] using h1, by simpa using h2⟩
      · rintro ⟨k, hk, h1, h2⟩
        exact ⟨k, by simp [hk], by simpa using h1, by simpa using h2⟩

/-- A completed prefix of a load block hands its state to the rest. -/
theorem loadBlock_append {js : List RegIdx} (ks : List RegIdx) {s t : State} (h : loadBlock js s = .next t) :
    loadBlock (js ++ ks) s = loadBlock ks t := by
  induction js generalizing s with
  | nil => simp only [loadBlock, Host.Outcome.next.injEq] at h; subst h; rfl
  | cons j js ih =>
    rw [List.cons_append, loadBlock_cons]
    rw [loadBlock_cons] at h
    split at h
    · rename_i hv; rw [if_pos hv]; exact ih h
    · simp [raise] at h

/-- Where a load block stops: the indices before the first invalid address are loaded, the error carries that address, and
nothing after it is looked at (R214). -/
theorem loadBlock_stops {js : List RegIdx} {k : RegIdx} (ks : List RegIdx) {s : State}
    (hv : ∀ j ∈ js, isValidAddress (s.blockAddr j) = true) (hk : isValidAddress (s.blockAddr k) = false) :
    ∃ t, LoadedOnly s js t ∧ loadBlock js s = .next t ∧
      loadBlock (js ++ k :: ks) s = raise (.addressRange (s.blockAddr k)) t := by
  obtain ⟨t, ht, ⟨-, h⟩ | ⟨j, hj, hb, -⟩⟩ := loadBlock_outcome js s
  · have ha : t.blockAddr k = s.blockAddr k := by simp [State.blockAddr, ht.i]
    refine ⟨t, ht, h, ?_⟩
    rw [loadBlock_append _ h, loadBlock_cons, ha, if_neg (by simp [hk])]
  · rw [hv j hj] at hb; cases hb

/-- After a completed load block, every register of the block holds its byte. -/
theorem loadBlock_loaded {js : List RegIdx} {s t : State} (hd : js.Nodup) (h : loadBlock js s = .next t) :
    ∀ j ∈ js, t.readV j = s.mem.get (s.blockAddr j) := by
  induction js generalizing s with
  | nil => simp
  | cons j js ih =>
    rw [loadBlock_cons] at h
    rw [List.nodup_cons] at hd
    split at h
    · intro k hk
      rcases List.mem_cons.1 hk with rfl | hk
      · obtain ⟨u, hu, hu'⟩ := loadBlock_outcome js (s.writeV k (s.mem.get (s.blockAddr k)))
        rcases hu' with ⟨-, e⟩ | ⟨_, -, -, e⟩
        · rw [e] at h
          simp only [Host.Outcome.next.injEq] at h
          subst h
          rw [hu.other k hd.1]; simp
        · rw [e] at h; simp [raise] at h
      · simpa using ih hd.2 h k hk
    · simp [raise] at h

end Sys2Proof.Machine
end

