-- ==== Sys2Proof/Laws/Encoding.lean ====
section
/-! SUPPORT. Words as four nibbles: every word is one, equal words have equal nibbles, and what each opcode mask, operand
field and format does to them (spec/30_encoding.md R91, R92, R94). -/

namespace Sys2Proof

/-- The word `a b c d`, one hexadecimal digit each. -/
abbrev ofNibbles (a b c d : BitVec 4) : Word := a ++ b ++ c ++ d

/-- Every word is its four nibbles. -/
theorem eq_ofNibbles (w : Word) :
    w = ofNibbles (w.extractLsb' 12 4) (w.extractLsb' 8 4) (w.extractLsb' 4 4) (w.extractLsb' 0 4) := by
  apply BitVec.eq_of_getLsbD_eq
  intro i hi
  simp only [BitVec.getLsbD_append, BitVec.getLsbD_extractLsb']
  interval_cases i <;> simp

/-- Equal words have equal nibbles. -/
theorem ofNibbles_inj {a b c d a' b' c' d' : BitVec 4} :
    ofNibbles a b c d = ofNibbles a' b' c' d' ↔ a = a' ∧ b = b' ∧ c = c' ∧ d = d' := by
  constructor
  · intro h
    have key : ∀ k, (ofNibbles a b c d).getLsbD k = (ofNibbles a' b' c' d').getLsbD k := fun k => by rw [h]
    simp only [BitVec.getLsbD_append] at key
    refine ⟨?_, ?_, ?_, ?_⟩ <;> apply BitVec.eq_of_getLsbD_eq <;> intro i hi
    · have := key (i + 12); interval_cases i <;> simpa using this
    · have := key (i + 8); interval_cases i <;> simpa using this
    · have := key (i + 4); interval_cases i <;> simpa using this
    · have := key i; interval_cases i <;> simpa using this
  · rintro ⟨rfl, rfl, rfl, rfl⟩; rfl

/-! ### The opcode masks of R92 -/

theorem ofNibbles_and_F000 (a b c d : BitVec 4) : ofNibbles a b c d &&& 0xF000 = ofNibbles a 0 0 0 := by
  apply BitVec.eq_of_getLsbD_eq
  intro i hi
  simp only [BitVec.getLsbD_and, BitVec.getLsbD_append]
  interval_cases i <;> simp

theorem ofNibbles_and_F00F (a b c d : BitVec 4) : ofNibbles a b c d &&& 0xF00F = ofNibbles a 0 0 d := by
  apply BitVec.eq_of_getLsbD_eq
  intro i hi
  simp only [BitVec.getLsbD_and, BitVec.getLsbD_append]
  interval_cases i <;> simp

theorem ofNibbles_and_F0FF (a b c d : BitVec 4) : ofNibbles a b c d &&& 0xF0FF = ofNibbles a 0 c d := by
  apply BitVec.eq_of_getLsbD_eq
  intro i hi
  simp only [BitVec.getLsbD_and, BitVec.getLsbD_append]
  interval_cases i <;> simp

theorem ofNibbles_and_FFFF (a b c d : BitVec 4) : ofNibbles a b c d &&& 0xFFFF = ofNibbles a b c d := by
  ext i hi
  simp only [BitVec.getElem_and]
  interval_cases i <;> simp

/-! ### The operand fields of R94 -/

@[simp] theorem fieldX_ofNibbles (a b c d : BitVec 4) : fieldX (ofNibbles a b c d) = b := by
  apply BitVec.eq_of_getLsbD_eq
  intro i hi
  simp only [fieldX, maskX, BitVec.getLsbD_setWidth, BitVec.getLsbD_ushiftRight, BitVec.getLsbD_and,
    BitVec.getLsbD_append]
  interval_cases i <;> simp

@[simp] theorem fieldY_ofNibbles (a b c d : BitVec 4) : fieldY (ofNibbles a b c d) = c := by
  apply BitVec.eq_of_getLsbD_eq
  intro i hi
  simp only [fieldY, maskY, BitVec.getLsbD_setWidth, BitVec.getLsbD_ushiftRight, BitVec.getLsbD_and,
    BitVec.getLsbD_append]
  interval_cases i <;> simp

@[simp] theorem fieldKk_ofNibbles (a b c d : BitVec 4) : fieldKk (ofNibbles a b c d) = c ++ d := by
  apply BitVec.eq_of_getLsbD_eq
  intro i hi
  simp only [fieldKk, maskKk, BitVec.getLsbD_setWidth, BitVec.getLsbD_and, BitVec.getLsbD_append]
  interval_cases i <;> simp

@[simp] theorem fieldNnn_ofNibbles (a b c d : BitVec 4) : fieldNnn (ofNibbles a b c d) = b ++ c ++ d := by
  apply BitVec.eq_of_getLsbD_eq
  intro i hi
  simp only [fieldNnn, maskNnn, BitVec.getLsbD_setWidth, BitVec.getLsbD_and, BitVec.getLsbD_append]
  interval_cases i <;> simp

/-! ### The formats of R92 -/

theorem byte_eq_nibbles (k : Byte) : k = k.extractLsb' 4 4 ++ k.extractLsb' 0 4 := by
  apply BitVec.eq_of_getLsbD_eq
  intro i hi
  simp only [BitVec.getLsbD_append, BitVec.getLsbD_extractLsb']
  interval_cases i <;> simp

theorem addr_eq_nibbles (n : Addr12) : n = n.extractLsb' 8 4 ++ n.extractLsb' 4 4 ++ n.extractLsb' 0 4 := by
  apply BitVec.eq_of_getLsbD_eq
  intro i hi
  simp only [BitVec.getLsbD_append, BitVec.getLsbD_extractLsb']
  interval_cases i <;> simp

theorem formatA_eq (op : BitVec 4) (n : Addr12) :
    formatA op n = ofNibbles op (n.extractLsb' 8 4) (n.extractLsb' 4 4) (n.extractLsb' 0 4) := by
  apply BitVec.eq_of_getLsbD_eq
  intro i hi
  simp only [formatA, BitVec.getLsbD_append, BitVec.getLsbD_extractLsb']
  interval_cases i <;> simp

theorem formatXK_eq (op x : BitVec 4) (k : Byte) :
    formatXK op x k = ofNibbles op x (k.extractLsb' 4 4) (k.extractLsb' 0 4) := by
  apply BitVec.eq_of_getLsbD_eq
  intro i hi
  simp only [formatXK, BitVec.getLsbD_append, BitVec.getLsbD_extractLsb']
  interval_cases i <;> simp

theorem formatXY_eq (op x y fn : BitVec 4) : formatXY op x y fn = ofNibbles op x y fn := rfl

theorem formatX_eq (op x : BitVec 4) (fn : BitVec 8) :
    formatX op x fn = ofNibbles op x (fn.extractLsb' 4 4) (fn.extractLsb' 0 4) := by
  apply BitVec.eq_of_getLsbD_eq
  intro i hi
  simp only [formatX, BitVec.getLsbD_append, BitVec.getLsbD_extractLsb']
  interval_cases i <;> simp

end Sys2Proof
end

