-- ==== Sys2Proof/Laws/Footprint.lean ====
section
/-! SUPPORT. The footprint of each shared operation, once. -/

namespace Sys2Proof.Machine

/-- A state differs from itself inside every footprint. -/
theorem Footprint.Bounds.refl (f : Footprint) (s : State) : f.Bounds s s := by
  simp [Footprint.Bounds]

/-- Writing one V register changes that register alone. -/
theorem State.writeV_bounds (s : State) (x : RegIdx) (b : Byte) : (Footprint.reg x).Bounds s (s.writeV x b) := by
  simp +contextual [Footprint.Bounds, Footprint.reg]

/-- A flagged write changes VF and its register alone. -/
theorem State.writeFlagged_bounds (s : State) (x : RegIdx) (r : AluOut) :
    (Footprint.flagged x).Bounds s (s.writeFlagged x r) := by
  simp +contextual [Footprint.Bounds, Footprint.flagged]

/-- A skip, taken or not, changes PC alone. -/
theorem State.skipIf_bounds (s : State) (c : Bool) : Footprint.pcOnly.Bounds s (s.skipIf c) := by
  simp [Footprint.Bounds, Footprint.pcOnly]

/-- A memory that differs from `s`'s only at cells of the footprint. -/
theorem State.setMem_bounds {f : Footprint} {s : State} {m : Memory}
    (h : ∀ a, f.cell a = false → m.get a = s.mem.get a) : f.Bounds s (s.setMem m) := by
  simpa [Footprint.Bounds] using h

/-- Whatever a store block does, it stays inside the cells of its indices. -/
theorem StoredOnly.bounds {s : State} {js : List RegIdx} {m : Memory} (h : StoredOnly s js m) {f : Footprint}
    (hf : ∀ j ∈ js, f.cell (s.blockAddr j) = true) : f.Bounds s (s.setMem m) := by
  refine State.setMem_bounds fun a ha => h.other a fun j hj _ e => ?_
  rw [← e, hf j hj] at ha
  cases ha

/-- Whatever a load block does, it stays inside the registers of its indices. -/
theorem LoadedOnly.bounds {s t : State} {js : List RegIdx} (h : LoadedOnly s js t) {f : Footprint}
    (hf : ∀ j ∈ js, f.v j = true) : f.Bounds s t := by
  refine ⟨fun j hj => h.other j fun hm => ?_, fun _ => h.i, fun _ => h.pc, fun _ => h.sp, fun _ => ⟨h.dt, h.dtTop⟩,
    fun _ => ⟨h.st, h.stTop⟩, fun a _ => by rw [h.mem], fun _ => h.env⟩
  rw [hf j hm] at hj
  cases hj

/-- A flag as a number. -/
theorem flagOf_toNat (p : Bool) : (flagOf p).toNat = if p then 1 else 0 := by cases p <;> rfl

/-- A block fits exactly when every one of its addresses is valid (R61, R78). -/
theorem State.blockFits_iff (s : State) (x : RegIdx) :
    s.blockFits x ↔ ∀ j ∈ blockIndices x, isValidAddress (s.blockAddr j) = true := by
  simp only [State.blockFits, mem_blockIndices, isValidAddress_iff, State.blockAddr, Config.memThreshold,
    Config.memSize]
  constructor
  · rintro ⟨h1, h2⟩ j hj
    omega
  · intro h
    have h0 := h 0 (by simp)
    have hx := h x (Nat.le_refl _)
    have z : (0 : RegIdx).toNat = 0 := rfl
    rw [z] at h0
    omega

end Sys2Proof.Machine
end

