-- ==== Sys2Proof/Laws/PerInstr.lean ====
section
/-! SUPPORT. Statements about every instruction as syntax, one lemma per constructor. -/

namespace Sys2Proof.Laws.EncodesInItsRow

/-- The word of an instruction carries its own catalogue row's opcode bits, whatever the operands: the row's mask
applied to the word is the row's value (spec/30_encoding.md R95, R96). -/
def Statement (i : Instr) : Prop :=
  ∃ d ∈ catalogue, d.id = i.id ∧ encode i &&& d.mask = d.value

/-- A row found by its place in the catalogue. -/
theorem of_row {i : Instr} (k : Nat) (hk : k < catalogue.length) (hid : catalogue[k].id = i.id)
    (hm : encode i &&& catalogue[k].mask = catalogue[k].value) : Statement i :=
  ⟨catalogue[k], List.getElem_mem hk, hid, hm⟩

theorem cls : Statement .cls :=
  of_row 0 (by decide) rfl (by decide)

theorem ret : Statement .ret :=
  of_row 1 (by decide) rfl (by decide)

theorem call (nnn : Addr12) : Statement (.call nnn) :=
  of_row 2 (by decide) rfl ((congrArg (· &&& _) (formatA_eq ..)).trans (ofNibbles_and_F000 ..))

theorem sys (nnn : Addr12) : Statement (.sys nnn) :=
  of_row 3 (by decide) rfl ((congrArg (· &&& _) (formatA_eq ..)).trans (ofNibbles_and_F000 ..))

theorem jp (nnn : Addr12) : Statement (.jp nnn) :=
  of_row 4 (by decide) rfl ((congrArg (· &&& _) (formatA_eq ..)).trans (ofNibbles_and_F000 ..))

theorem seVxKk (x : RegIdx) (kk : Byte) : Statement (.seVxKk x kk) :=
  of_row 5 (by decide) rfl ((congrArg (· &&& _) (formatXK_eq ..)).trans (ofNibbles_and_F000 ..))

theorem seVxVy (x : RegIdx) (y : RegIdx) : Statement (.seVxVy x y) :=
  of_row 6 (by decide) rfl ((ofNibbles_and_F00F ..))

theorem sneVxKk (x : RegIdx) (kk : Byte) : Statement (.sneVxKk x kk) :=
  of_row 7 (by decide) rfl ((congrArg (· &&& _) (formatXK_eq ..)).trans (ofNibbles_and_F000 ..))

theorem sneVxVy (x : RegIdx) (y : RegIdx) : Statement (.sneVxVy x y) :=
  of_row 8 (by decide) rfl ((ofNibbles_and_F00F ..))

theorem ldVxKk (x : RegIdx) (kk : Byte) : Statement (.ldVxKk x kk) :=
  of_row 9 (by decide) rfl ((congrArg (· &&& _) (formatXK_eq ..)).trans (ofNibbles_and_F000 ..))

theorem ldVxVy (x : RegIdx) (y : RegIdx) : Statement (.ldVxVy x y) :=
  of_row 10 (by decide) rfl ((ofNibbles_and_F00F ..))

theorem ldINnn (nnn : Addr12) : Statement (.ldINnn nnn) :=
  of_row 11 (by decide) rfl ((congrArg (· &&& _) (formatA_eq ..)).trans (ofNibbles_and_F000 ..))

theorem ldVxDt (x : RegIdx) : Statement (.ldVxDt x) :=
  of_row 12 (by decide) rfl ((congrArg (· &&& _) (formatX_eq ..)).trans (ofNibbles_and_F0FF ..))

theorem ldDtVx (x : RegIdx) : Statement (.ldDtVx x) :=
  of_row 13 (by decide) rfl ((congrArg (· &&& _) (formatX_eq ..)).trans (ofNibbles_and_F0FF ..))

theorem ldStVx (x : RegIdx) : Statement (.ldStVx x) :=
  of_row 14 (by decide) rfl ((congrArg (· &&& _) (formatX_eq ..)).trans (ofNibbles_and_F0FF ..))

theorem ldIndVx (x : RegIdx) : Statement (.ldIndVx x) :=
  of_row 15 (by decide) rfl ((congrArg (· &&& _) (formatX_eq ..)).trans (ofNibbles_and_F0FF ..))

theorem ldVxInd (x : RegIdx) : Statement (.ldVxInd x) :=
  of_row 16 (by decide) rfl ((congrArg (· &&& _) (formatX_eq ..)).trans (ofNibbles_and_F0FF ..))

theorem addVxKk (x : RegIdx) (kk : Byte) : Statement (.addVxKk x kk) :=
  of_row 17 (by decide) rfl ((congrArg (· &&& _) (formatXK_eq ..)).trans (ofNibbles_and_F000 ..))

theorem addVxVy (x : RegIdx) (y : RegIdx) : Statement (.addVxVy x y) :=
  of_row 18 (by decide) rfl ((ofNibbles_and_F00F ..))

theorem addIVx (x : RegIdx) : Statement (.addIVx x) :=
  of_row 19 (by decide) rfl ((congrArg (· &&& _) (formatX_eq ..)).trans (ofNibbles_and_F0FF ..))

theorem orVxVy (x : RegIdx) (y : RegIdx) : Statement (.orVxVy x y) :=
  of_row 20 (by decide) rfl ((ofNibbles_and_F00F ..))

theorem andVxVy (x : RegIdx) (y : RegIdx) : Statement (.andVxVy x y) :=
  of_row 21 (by decide) rfl ((ofNibbles_and_F00F ..))

theorem xorVxVy (x : RegIdx) (y : RegIdx) : Statement (.xorVxVy x y) :=
  of_row 22 (by decide) rfl ((ofNibbles_and_F00F ..))

theorem subVxVy (x : RegIdx) (y : RegIdx) : Statement (.subVxVy x y) :=
  of_row 23 (by decide) rfl ((ofNibbles_and_F00F ..))

theorem subnVxVy (x : RegIdx) (y : RegIdx) : Statement (.subnVxVy x y) :=
  of_row 24 (by decide) rfl ((ofNibbles_and_F00F ..))

theorem shrVxVy (x : RegIdx) (y : RegIdx) : Statement (.shrVxVy x y) :=
  of_row 25 (by decide) rfl ((ofNibbles_and_F00F ..))

theorem shlVxVy (x : RegIdx) (y : RegIdx) : Statement (.shlVxVy x y) :=
  of_row 26 (by decide) rfl ((ofNibbles_and_F00F ..))

end Sys2Proof.Laws.EncodesInItsRow
end

