-- ==== Sys2Proof/Laws/Step.lean ====
section
/-! SUPPORT. What the agents around the core can do to a step, once (spec/70_reset_and_hazards.md R252,
spec/60_exceptions.md R217, R220). -/

namespace Sys2Proof.Machine

/-! ### The timer agent -/

/-- With no timer agent nothing happens between steps (R220). -/
theorem State.timerActs_absent {s : State} (h : s.env.timer = .absent) : s.timerActs = s := by
  simp [State.timerActs, h]

/-- A draw never exceeds the value drawn from (R220). -/
theorem drawUpTo_le (free v : Byte) : (drawUpTo free v).toNat ≤ v.toNat := by
  have hv : v.toNat < 256 := v.isLt
  have hm : free.toNat % (v.toNat + 1) < v.toNat + 1 := Nat.mod_lt _ (Nat.succ_pos _)
  unfold drawUpTo
  rw [BitVec.toNat_ofNat, Nat.mod_eq_of_lt] <;> omega

/-- Every value not above `v` is the draw of some byte, itself (R220). -/
theorem drawUpTo_self {d v : Byte} (h : d.toNat ≤ v.toNat) : drawUpTo d v = d := by
  unfold drawUpTo
  rw [Nat.mod_eq_of_lt (Nat.lt_succ_of_le h), BitVec.ofNat_toNat, BitVec.setWidth_eq]

/-- With a timer agent, DT and ST become draws bounded by the values last written (R220). -/
theorem State.timerActs_present {s : State} {n : Nat} (h : s.env.timer = .present n) :
    s.timerActs = (s.tick (drawUpTo (Config.timerDraw n) s.dtTop) (drawUpTo (Config.timerDraw (n + 1)) s.stTop)).setEnv
      { s.env with timer := .present (n + 2) } := by
  simp [State.timerActs, h]

/-- The timer agent changes DT, ST and its own counter, nothing else. -/
theorem State.timerActs_keeps (s : State) :
    s.timerActs.v = s.v ∧ s.timerActs.i = s.i ∧ s.timerActs.pc = s.pc ∧ s.timerActs.sp = s.sp ∧
    s.timerActs.mem = s.mem ∧ s.timerActs.env.seq = s.env.seq ∧ s.timerActs.env.policy = s.env.policy ∧
    s.timerActs.env.errors = s.env.errors ∧ s.timerActs.dtTop = s.dtTop ∧ s.timerActs.stTop = s.stTop := by
  unfold State.timerActs
  split <;> simp

/-! ### The sequencer -/

/-- The sequencer's advance changes PC or its own cursor, nothing else. -/
theorem State.advance_keeps (s : State) :
    s.advance.v = s.v ∧ s.advance.i = s.i ∧ s.advance.sp = s.sp ∧ s.advance.dt = s.dt ∧ s.advance.st = s.st ∧
    s.advance.mem = s.mem ∧ s.advance.env.seq.words = s.env.seq.words ∧ s.advance.env.seq.kind = s.env.seq.kind ∧
    s.advance.env.seq.entry = s.env.seq.entry ∧ s.advance.env.seq.base = s.env.seq.base ∧
    s.advance.env.timer = s.env.timer ∧ s.advance.env.policy = s.env.policy ∧
    s.advance.env.errors = s.env.errors ∧ s.advance.dtTop = s.dtTop ∧ s.advance.stTop = s.stTop := by
  unfold State.advance
  split <;> simp

/-- Under SEQ-W the slot is PC less ENTRY (R253). -/
theorem State.slot_wordSlot {s : State} (h : s.env.seq.kind = .wordSlot) :
    s.slot = (s.pc - s.env.seq.entry).toNat := by
  unfold State.slot; rw [h]

/-- Under SEQ-STREAM the slot is the cursor (R254). -/
theorem State.slot_stream {s : State} (h : s.env.seq.kind = .stream) : s.slot = s.env.seq.cursor := by
  unfold State.slot; rw [h]

/-- Under SEQ-W the advance adds 1 to PC (R253). -/
theorem State.advance_wordSlot {s : State} (h : s.env.seq.kind = .wordSlot) : s.advance = s.setPc (s.pc + 1) := by
  unfold State.advance; rw [h]

/-- Under SEQ-STREAM the advance moves the cursor and leaves PC (R254). -/
theorem State.advance_stream {s : State} (h : s.env.seq.kind = .stream) :
    s.advance = s.setEnv { s.env with seq := { s.env.seq with cursor := s.env.seq.cursor + 1 } } := by
  unfold State.advance; rw [h]

/-- The word of the slot is offered with the tag `BASE + 2*k`. -/
theorem State.nextWord_some {s : State} {w : Word} (h : s.env.seq.words[s.slot]? = some w) :
    s.nextWord = some (w, s.env.seq.base + 2 * s.slot) := by
  unfold State.nextWord; rw [h]

/-- A slot past the end of the list offers no word. -/
theorem State.nextWord_none {s : State} (h : s.env.seq.words.length ≤ s.slot) : s.nextWord = none := by
  unfold State.nextWord; rw [List.getElem?_eq_none h]

/-- The word offered is a word of the list. -/
theorem State.nextWord_mem {s : State} {w : Word} {a : Nat} (h : s.nextWord = some (w, a)) : w ∈ s.env.seq.words := by
  unfold State.nextWord at h
  split at h
  · rename_i v hv
    cases h
    exact List.mem_of_getElem? hv
  · cases h

/-- The word put in a slot is the word the slot holds. -/
theorem putWord_get (ws : List Word) (k : Nat) (w : Word) : (putWord ws k w)[k]? = some w := by
  induction k generalizing ws with
  | zero => cases ws <;> rfl
  | succ k ih => cases ws <;> simpa [putWord] using ih _

/-- The next step after `withFetchWord` is offered exactly that word. -/
theorem State.withFetchWord_nextWord (s : State) (nbits w : Nat) :
    (s.withFetchWord nbits w).nextWord =
      some (BitVec.ofNat 16 (w % 2 ^ nbits), s.env.seq.base + 2 * s.slot) := by
  have hs : (s.withFetchWord nbits w).slot = s.slot := rfl
  have hw : (s.withFetchWord nbits w).env.seq.words = putWord s.env.seq.words s.slot (BitVec.ofNat 16 (w % 2 ^ nbits)) := rfl
  have hb : (s.withFetchWord nbits w).env.seq.base = s.env.seq.base := rfl
  simp [State.nextWord, hs, hw, hb, putWord_get]

/-! ### The core's step port -/

/-- A word that decodes is executed (R11). -/
theorem present_ok {w : Word} {i : Instr} (h : decode w = .ok i) (a : Nat) (s : State) : present w a s = exec i s := by
  simp [present, make, h]

/-- A word that does not decode raises, before anything executes (R211). -/
theorem present_error {w : Word} {e : DecodeError} (h : decode w = .error e) (a : Nat) (s : State) :
    present w a s = raise (.decodeError e.word) s := by
  simp [present, make, h]

/-! ### The error policy -/

@[simp] theorem settle_next (p : ErrorPolicy) (s : State) : settle p (.next s) = .next s := rfl

/-- Everything the host's policy can do with an error (R217). -/
theorem settle_raise (p : ErrorPolicy) (e : CoreError) (s : State) :
    (p.reaction e = .endRun ∧ settle p (raise e s) = raise e s) ∨
    (p.reaction e = .carryOn ∧ settle p (raise e s) = .next (s.noteError e)) := by
  unfold settle raise
  cases h : p.reaction e <;> simp [h]

/-- When a step answers a next state, the sequencer offered a word and either the core answered that state, or it
raised an error that the host carried on from. -/
theorem step_next_cases {s t : State} (h : step s = .next t) :
    ∃ w a, s.timerActs.nextWord = some (w, a) ∧
      (present w a s.timerActs.advance = .next t ∨
       ∃ e u, present w a s.timerActs.advance = .fault (.raised e u) ∧
         s.timerActs.env.policy.reaction e = .carryOn ∧ t = u.noteError e) := by
  unfold step runStep at h
  split at h
  · cases h
  · rename_i w a hw
    refine ⟨w, a, hw, ?_⟩
    unfold settle at h
    split at h
    · rename_i e u hu
      split at h
      · cases h
      · rename_i hr
        cases h
        exact .inr ⟨e, u, hu, hr, rfl⟩
    · cases h
    · rename_i u hu
      cases h
      exact .inl hu
    · cases h

/-- Every state a step can leave, as next state or with a fault: the state the timer agent left, when no word is offered;
the state after the advance, when the word does not decode; the state Execute leaves otherwise; each with the error
noted when the host carries on. -/
theorem step_leaves {s t : State} (h : stateAfter (step s) = some t) :
    (s.timerActs.nextWord = none ∧ t = s.timerActs) ∨
    ∃ w a, s.timerActs.nextWord = some (w, a) ∧ ∃ u, (t = u ∨ ∃ e, t = u.noteError e) ∧
      ((∃ e, decode w = .error e) ∧ u = s.timerActs.advance ∨
       ∃ i, decode w = .ok i ∧ stateAfter (exec i s.timerActs.advance) = some u) := by
  unfold step runStep at h
  split at h
  · rename_i hn
    cases h
    exact .inl ⟨hn, rfl⟩
  · rename_i w a hw
    refine .inr ⟨w, a, hw, ?_⟩
    have settled : ∀ {p : ErrorPolicy} {e : CoreError} {u : State}, stateAfter (settle p (raise e u)) = some t →
        t = u ∨ ∃ e, t = u.noteError e := by
      intro p e u hs
      rcases settle_raise p e u with ⟨-, hr⟩ | ⟨-, hr⟩ <;> rw [hr] at hs <;> cases hs
      · exact .inl rfl
      · exact .inr ⟨e, rfl⟩
    cases hd : decode w with
    | error e =>
      rw [present_error hd] at h
      exact ⟨_, settled h, .inl ⟨⟨e, rfl⟩, rfl⟩⟩
    | ok i =>
      rw [present_ok hd] at h
      cases hx : exec i s.timerActs.advance with
      | next u =>
        rw [hx] at h
        cases h
        exact ⟨_, .inl rfl, .inr ⟨i, rfl, by rw [hx]; rfl⟩⟩
      | fault f =>
        rw [hx] at h
        cases f with
        | raised e u => exact ⟨u, settled h, .inr ⟨i, rfl, by rw [hx]; rfl⟩⟩
        | runEnded u =>
          cases h
          exact ⟨_, .inl rfl, .inr ⟨i, rfl, by rw [hx]; rfl⟩⟩
      | refused r =>
        rw [hx] at h
        cases h

/-! ### The host between steps -/

/-- Everything one act of the host can do: it leaves the surroundings, or raises for an address outside the window and
changes nothing (R65, R212). -/
theorem State.hostAct_cases (s : State) (act : HostAct) :
    (∃ t, s.hostAct act = .next t ∧ t.env = s.env) ∨
    (act.inWindow = false ∧ ∃ a, s.hostAct act = raise (.addressRange a) s) := by
  cases act with
  | reg8 r n => cases r <;> exact .inl ⟨_, rfl, rfl⟩
  | reg16 r n => cases r <;> exact .inl ⟨_, rfl, rfl⟩
  | memRead a =>
    cases h : isValidAddress a with
    | true => exact .inl ⟨s, by simp [State.hostAct, State.hostRead, State.memRead, h], rfl⟩
    | false => exact .inr ⟨h, a, by simp [State.hostAct, State.hostRead, State.memRead, h]⟩
  | memWrite a n =>
    cases h : isValidAddress a with
    | true =>
      exact .inl ⟨s.setMem (s.mem.set a (BitVec.ofNat 8 n)), by simp [State.hostAct, State.hostWrite, State.memWrite, h], rfl⟩
    | false => exact .inr ⟨h, a, by simp [State.hostAct, State.hostWrite, State.memWrite, h]⟩

@[simp] theorem hostTurn_nil (s : State) : hostTurn [] s = .next s := rfl

/-- A turn whose acts all lie in the window is completed, and leaves the surroundings. -/
theorem hostTurn_inWindow {acts : List HostAct} (h : ∀ act ∈ acts, act.inWindow = true) (s : State) :
    ∃ t, hostTurn acts s = .next t ∧ t.env = s.env := by
  induction acts generalizing s with
  | nil => exact ⟨s, rfl, rfl⟩
  | cons act acts ih =>
    rcases s.hostAct_cases act with ⟨t, ht, he⟩ | ⟨hw, -⟩
    · obtain ⟨u, hu, hue⟩ := ih (fun a ha => h a (by simp [ha])) t
      exact ⟨u, by simp [hostTurn, ht, hu], hue.trans he⟩
    · rw [h act (by simp)] at hw; cases hw

end Sys2Proof.Machine
end

