-- ==== Sys2Proof/Tests/Slice0.lean ====
section
/-! SUPPORT. Tests of the model against spec/95_test_vectors.md (expected values are the spec's, never the model's), the
well-formedness smoke test, and for every obligation with hypotheses a witness that meets them. -/

namespace Sys2Proof.Tests

open Sys2Proof.Machine

/-! ## Helpers -/

/-- The state after one step that presents the word `w`. -/
def after (s : State) (w : Nat) : Option State := nextState (step (s.withFetchWord 16 w))

/-- The error and the state it leaves after one step that presents the word `w`. -/
def failing (s : State) (w : Nat) : Option (CoreError × State) :=
  match step (s.withFetchWord 16 w) with
  | .fault (.raised e t) => some (e, t)
  | .fault (.runEnded _) => none
  | .next _ => none
  | .refused _ => none

/-- Reset with V0 and V1 set. -/
def two (a b : Byte) : State := (State.reset.writeV 0 a).writeV 1 b

/-- Reset with I set and Vj = j + 1 for every j (the start of several vectors of section 2.4). -/
def ramp (i : Word) : State :=
  { State.reset with i := i, v := #v[1, 2, 3, 4, 5, 6, 7, 8, 9, 10, 11, 12, 13, 14, 15, 16] }

/-- A state with the given word list. -/
def prog (ws : List Word) (s : State) : State :=
  s.setEnv { s.env with seq := { s.env.seq with words := ws } }

/-- A state whose sequencer is SEQ-STREAM with the given word list. -/
def streamed (ws : List Word) (s : State) : State :=
  s.setEnv { s.env with seq := { s.env.seq with kind := .stream, words := ws } }

/-! ## Well-formedness: the ill-formed terms are refused (R103, R143) -/

theorem test_wellFormed_refuses_sys_0E0 : (Instr.sys 0x0E0).wellFormed = false := by decide
theorem test_wellFormed_refuses_sys_0EE : (Instr.sys 0x0EE).wellFormed = false := by decide
theorem test_wellFormed_takes_sys_0EF : (Instr.sys 0x0EF).wellFormed = true := by decide

/-! ## Decoding: one written-out word for every constructor (R96, 95_test_vectors.md 2.1) -/

theorem test_decode_control :
    decode 0x00E0 = .ok .cls ∧ decode 0x00EE = .ok .ret ∧ decode 0x2FFF = .ok (.call 0xFFF) ∧
    decode 0x00EF = .ok (.sys 0x0EF) ∧ decode 0x1ABC = .ok (.jp 0xABC) ∧ decode 0x3A7F = .ok (.seVxKk 10 0x7F) ∧
    decode 0x5AB0 = .ok (.seVxVy 10 11) ∧ decode 0x4F00 = .ok (.sneVxKk 15 0) ∧
    decode 0x9120 = .ok (.sneVxVy 1 2) := by decide

theorem test_decode_loads :
    decode 0x6CFF = .ok (.ldVxKk 12 0xFF) ∧ decode 0x8120 = .ok (.ldVxVy 1 2) ∧ decode 0xA123 = .ok (.ldINnn 0x123) ∧
    decode 0xF107 = .ok (.ldVxDt 1) ∧ decode 0xF115 = .ok (.ldDtVx 1) ∧ decode 0xF118 = .ok (.ldStVx 1) ∧
    decode 0xF155 = .ok (.ldIndVx 1) ∧ decode 0xF165 = .ok (.ldVxInd 1) := by decide

theorem test_decode_arithmetic :
    decode 0x7001 = .ok (.addVxKk 0 1) ∧ decode 0x8124 = .ok (.addVxVy 1 2) ∧ decode 0xF11E = .ok (.addIVx 1) ∧
    decode 0x8121 = .ok (.orVxVy 1 2) ∧ decode 0x8122 = .ok (.andVxVy 1 2) ∧ decode 0x8123 = .ok (.xorVxVy 1 2) ∧
    decode 0x8125 = .ok (.subVxVy 1 2) ∧ decode 0x8127 = .ok (.subnVxVy 1 2) ∧ decode 0x8126 = .ok (.shrVxVy 1 2) ∧
    decode 0x812E = .ok (.shlVxVy 1 2) := by decide

theorem test_decode_refuses :
    decode 0x5AB1 = .error ⟨0x5AB1⟩ ∧ decode 0x8128 = .error ⟨0x8128⟩ ∧ decode 0x812D = .error ⟨0x812D⟩ ∧
    decode 0x812F = .error ⟨0x812F⟩ ∧ decode 0x9121 = .error ⟨0x9121⟩ ∧ decode 0xB123 = .error ⟨0xB123⟩ ∧
    decode 0xE19E = .error ⟨0xE19E⟩ ∧ decode 0xF10A = .error ⟨0xF10A⟩ ∧ decode 0xF100 = .error ⟨0xF100⟩ ∧
    decode 0xFFFF = .error ⟨0xFFFF⟩ := by decide

theorem test_bytes_are_big_endian : decodeBytes 0x61 0x0F = .ok (.ldVxKk 1 0x0F) ∧
    encodeBytes (.ldVxKk 1 0x0F) = [0x61, 0x0F] := by decide

theorem test_table_word : decodeTableWord 16 0x8124 = some (.addVxVy 1 2) ∧ decodeTableWord 16 0xFFFF = none := by decide

/-! ## One step of each instruction (95_test_vectors.md 2.3 to 2.6); PC moves by the sequencer's 1 besides (R253) -/

theorem test_cls : after State.reset 0x00E0 = some ((State.reset.withFetchWord 16 0x00E0).setPc 0x201) := by decide
theorem test_ret : (failing State.reset 0x00EE).map (fun p => (p.1, p.2.sp)) = some (.unimplemented .ret, 0) := by decide
theorem test_call : (failing State.reset 0x2300).map (fun p => (p.1, p.2.pc)) = some (.unimplemented .call, 0x201) := by decide
theorem test_sys : (failing State.reset 0x0000).map (·.1) = some (.unimplemented .sys) := by decide
theorem test_undecodable : (failing State.reset 0xFFFF).map (·.1) = some (.decodeError 0xFFFF) := by decide
theorem test_jp_odd_below_window : (after State.reset 0x1001).map (·.pc) = some 0x0001 := by decide
theorem test_seVxKk_skips : (after (two 5 0) 0x3005).map (·.pc) = some 0x202 := by decide
theorem test_seVxKk_wraps : (nextState (exec (.seVxKk 0 0) (State.reset.setPc 0xFFFF))).map (·.pc) = some 0 := by decide
theorem test_seVxVy_stays : (after (two 7 8) 0x5010).map (·.pc) = some 0x201 := by decide
theorem test_sneVxKk_skips : (after (two 0 0) 0x4001).map (·.pc) = some 0x202 := by decide
theorem test_sneVxVy_same_register : (after (two 9 0) 0x9330).map (·.pc) = some 0x201 := by decide
theorem test_ldVxKk : (after State.reset 0x6F80).map (·.readV 15) = some 0x80 := by decide
theorem test_ldVxVy : (after (two 0 0x33) 0x8010).map (fun t => (t.readV 0, t.readV 1)) = some (0x33, 0x33) := by decide
theorem test_ldINnn : (after (State.reset.setI 0xFFFF) 0xA2F0).map (·.i) = some 0x02F0 := by decide
theorem test_ldVxDt : (after (State.reset.setDt 0x3C) 0xF407).map (fun t => (t.readV 4, t.dt)) = some (0x3C, 0x3C) := by decide
theorem test_ldDtVx : (after (two 0x3C 0) 0xF015).map (fun t => (t.dt, t.st)) = some (0x3C, 0) := by decide
theorem test_ldStVx : (after (two 5 0) 0xF018).map (fun t => (t.st, t.dt)) = some (5, 0) := by decide
theorem test_ldIndVx_stores : (after (ramp 0x0300) 0xF255).map (fun t => (t.mem, t.i)) =
    some ([(0x300, 1), (0x301, 2), (0x302, 3)], 0x0300) := by decide
theorem test_ldIndVx_partial : (failing (ramp 0x0FFE) 0xF255).map (fun p => (p.1, p.2.mem)) =
    some (.addressRange 0x1000, [(0xFFE, 1), (0xFFF, 2)]) := by decide
theorem test_ldVxInd_loads :
    (after ((two 0 0).setI 0x0300 |>.setMem [(0x300, 0xAA), (0x301, 0xBB)]) 0xF165).map
      (fun t => (t.readV 0, t.readV 1)) = some (0xAA, 0xBB) := by decide
theorem test_ldVxInd_partial :
    (failing ((ramp 0x0FFE).setMem [(0xFFE, 0x11), (0xFFF, 0x22)]) 0xF265).map
      (fun p => (p.1, p.2.readV 0, p.2.readV 1, p.2.readV 2)) = some (.addressRange 0x1000, 0x11, 0x22, 3) := by decide
theorem test_addVxKk_no_flag : (after (two 0 0xFE) 0x7103).map (fun t => (t.readV 1, t.readV 15)) = some (1, 0) := by decide
theorem test_addVxVy_carry : (after (two 0xFF 0x01) 0x8014).map (fun t => (t.readV 0, t.readV 15)) = some (0, 1) := by decide
theorem test_addVxVy_vf_result_wins :
    (after ((two 0 2).writeV 15 0xFF) 0x8F14).map (·.readV 15) = some 1 := by decide
theorem test_addIVx_no_mask : (after ((two 1 0).setI 0x0FFF) 0xF01E).map (·.i) = some 0x1000 := by decide
theorem test_addIVx_wraps : (after ((two 2 0).setI 0xFFFF) 0xF01E).map (·.i) = some 0x0001 := by decide
theorem test_or : (after (two 0xF0 0x0F) 0x8011).map (·.readV 0) = some 0xFF := by decide
theorem test_and : (after (two 0xF3 0x3F) 0x8012).map (·.readV 0) = some 0x33 := by decide
theorem test_xor : (after (two 0xFF 0x0F) 0x8013).map (·.readV 0) = some 0xF0 := by decide
theorem test_sub_borrow : (after (two 0x0F 0xFF) 0x8015).map (fun t => (t.readV 0, t.readV 15)) = some (0x10, 0) := by decide
theorem test_sub_equal_is_not_greater : (after (two 5 5) 0x8015).map (fun t => (t.readV 0, t.readV 15)) = some (0, 0) := by decide
theorem test_subn_is_not_reversed : (after (two 0x05 0x10) 0x8017).map (fun t => (t.readV 0, t.readV 15)) = some (0xF5, 1) := by decide
theorem test_subn_old_vf : (after ((two 1 0).writeV 15 3) 0x80F7).map (fun t => (t.readV 0, t.readV 15)) = some (0xFE, 1) := by decide
theorem test_shr_ignores_vy : (after (two 0x05 0xFF) 0x8016).map (fun t => (t.readV 0, t.readV 1, t.readV 15)) = some (2, 0xFF, 1) := by decide
theorem test_shr_vf : (after (State.reset.writeV 15 7) 0x8F06).map (·.readV 15) = some 3 := by decide
theorem test_shl_high_bit : (after (two 0xF0 0) 0x800E).map (fun t => (t.readV 0, t.readV 15)) = some (0xE0, 1) := by decide
theorem test_shl_vf : (after (State.reset.writeV 15 0x81) 0x8F0E).map (·.readV 15) = some 2 := by decide

/-! ## Memory controller and ports (95_test_vectors.md 2.7) -/

theorem test_window_edges :
    memValid 511 = false ∧ memValid 512 = true ∧ memValid 4095 = true ∧ memValid 4096 = false := by decide
theorem test_hostWrite_modulo :
    (State.reset.hostWrite 0x300 0x1FF).toOption.map (fun t => t.hostRead 0x300) = some (.ok 0xFF) := by decide
theorem test_hostRead_outside : State.reset.hostRead 511 = .error (.addressRange 511) ∧
    State.reset.hostWrite 4096 1 = .error (.addressRange 4096) := by decide
theorem test_set_zero_unlists : Memory.set [(600, 7), (700, 8)] 600 0 = [(700, 8)] := by decide

/-! ## Text (95_test_vectors.md S7 and 2.2) -/

theorem test_dump_fixture : disassembleToString [0x00E0, 0x610F, 0x620A, 0x8124] 0x200 =
    .ok "0x200 CLS\n0x202 LD V1 0xf\n0x204 LD V2 0xa\n0x206 ADD V1 V2\n" := by decide
theorem test_dump_registers_and_zero :
    dump ⟨.seVxKk 12 0, 0x20C⟩ = "0x20c SE VC 0x0" ∧ dump ⟨.ldVxDt 10, 0x218⟩ = "0x218 LD VA VDelay" ∧
    dump ⟨.ldStVx 0, 0x21C⟩ = "0x21c LD VSound V0" ∧ dump ⟨.ldIndVx 2, 0x21E⟩ = "0x21e LD [I] V2" ∧
    dump ⟨.addIVx 2, 0x224⟩ = "0x224 ADD I V2" ∧ dump ⟨.ret, 0x2⟩ = "0x2 RET" := by decide
theorem test_disassemble_reports_errors :
    disassemble [0x6301, 0xFFFF] 0x200 = [.ok ⟨.ldVxKk 3 1, 0x200⟩, .error ⟨0xFFFF⟩] := by decide
theorem test_catalogue_mnemonics : ∀ d ∈ catalogue, d.mnemonic = mnemonicOf d.id := by decide

/-! ## Witnesses: the hypotheses of the obligations can be met -/

theorem witness_DecodeOfEncodeGivesTheInstruction : (Instr.sys 0x0FFF).wellFormed = true := by decide
theorem witness_EncodeOfDecodedWordGivesTheWord : decode 0x00E1 = .ok (.sys 0x0E1) := by decide
theorem witness_DecodeReturnsTheFirstMatchOrTheError :
    (decodeDef 0x00E0).map (·.id) = some .CLS ∧ decode 0x9121 = .error ⟨0x9121⟩ ∧ decode 0x9120 = .ok (.sneVxVy 1 2) := by decide
theorem witness_EveryDefinitionDecodesFromItsOwnValue : defn .SYS "SYS" 0xF000 0x0000 1 maskNnn 0 0 ∈ catalogue := by decide

/-- Another order of the catalogue: its last definition moved to the front. -/
def shlFirst : List Definition := catalogue.drop 26 ++ catalogue.take 26

theorem witness_EveryAdmissibleOrderDecodesAlike : shlFirst ≠ catalogue ∧ shlFirst.Perm catalogue ∧
    ∀ before d after, shlFirst = before ++ d :: after → d.id = .SYS →
      (∃ c ∈ before, c.id = .CLS) ∧ (∃ r ∈ before, r.id = .RET) := by
  have table : ∀ k < shlFirst.length, (shlFirst[k]?.map (·.id) = some .SYS →
      (shlFirst.take k).any (·.id == .CLS) && (shlFirst.take k).any (·.id == .RET) = true) := by decide
  refine ⟨by decide, ?_, fun before d after h hd => ?_⟩
  · exact List.perm_append_comm.trans (List.take_append_drop 26 catalogue ▸ List.Perm.refl _)
  · have hk := table before.length (by rw [h]; simp) (by rw [h]; simp [hd])
    rw [h] at hk
    simpa using hk

theorem witness_OnlyClsAndRetWordsMatchTwoDefinitions :
    ∃ d ∈ catalogue, ∃ e ∈ catalogue, d ≠ e ∧ d.matchesWord 0x00EE = true ∧ e.matchesWord 0x00EE = true :=
  ⟨defn .RET "RET" 0xFFFF 0x00EE 0 0 0 0, by decide, defn .SYS "SYS" 0xF000 0x0000 1 maskNnn 0 0, by decide, by decide⟩

theorem witness_UndecodableWordsByLeadingNibble :
    decode 0x5001 = .error ⟨0x5001⟩ ∧ decode 0x8FFF = .error ⟨0x8FFF⟩ ∧ decode 0xB000 = .error ⟨0xB000⟩ ∧
    decode 0xEFFF = .error ⟨0xEFFF⟩ ∧ decode 0xF064 = .error ⟨0xF064⟩ ∧ decode 0x800E = .ok (.shlVxVy 0 0) := by decide
theorem witness_OperandsAreTheMaskedShiftedFields :
    decodeDef 0x8124 = some (defn .ADD_VX_VY "ADD" 0xF00F 0x8004 2 maskX maskY 0) ∧
    decode 0x8124 = .ok (.addVxVy 1 2) := by decide
theorem witness_LdVxKkPutsTheConstantInVx : (0x6FFF : Word) &&& 0xF000 = 0x6000 := by decide
theorem witness_AddVxVySetsSumAndCarry : (0x8FF4 : Word) &&& 0xF00F = 0x8004 := by decide
theorem witness_flag_not_the_destination : (14 : RegIdx) ≠ 15 := by decide

theorem witness_block_fits_low : (ramp 0x0200).Inv ∧ (ramp 0x0200).blockFits 0 := by
  refine ⟨by decide, ?_⟩
  unfold State.blockFits; decide
theorem witness_block_fits_high : (ramp 0x0FF0).Inv ∧ (ramp 0x0FF0).blockFits 15 := by
  refine ⟨by decide, ?_⟩
  unfold State.blockFits; decide
theorem witness_block_below : (ramp 0x01FF).Inv ∧ ¬ (ramp 0x01FF).blockFits 1 := by
  refine ⟨by decide, ?_⟩
  unfold State.blockFits; decide
theorem witness_block_crosses_the_top : (ramp 0x0FF1).Inv ∧ ¬ (ramp 0x0FF1).blockFits 15 := by
  refine ⟨by decide, ?_⟩
  unfold State.blockFits; decide
theorem witness_block_above : (ramp 0xFFFF).Inv ∧ ¬ (ramp 0xFFFF).blockFits 1 := by
  refine ⟨by decide, ?_⟩
  unfold State.blockFits; decide

theorem witness_ExecWritesOnlyItsFootprint :
    stateAfter (exec .cls State.reset) = some State.reset ∧ (stateAfter (exec .ret State.reset)).isSome = true ∧
    (stateAfter (exec (.ldIndVx 15) (ramp 0x0FF1))).isSome = true := by decide
theorem witness_ExecDependsOnlyOnWhatItReads :
    AgreeOnReads (.addVxVy 0 1) (two 3 4) ((two 3 4).setSp 9) ∧
    exec (.addVxVy 0 1) (two 3 4) = .next ((two 3 4).writeFlagged 0 (aluAdd 3 4)) := by
  refine ⟨by simp [AgreeOnReads, readsPc, readsI], rfl⟩
theorem witness_ExecDependsOnlyOnWhatItReads_load :
    AgreeOnReads (.ldVxInd 1) (ramp 0x0300) ((ramp 0x0300).setMem [(0x302, 5)]) := by
  refine ⟨by simp, by simp, by simp, by simp, ?_⟩
  rintro x ⟨rfl⟩ j hj
  have h1 : j.toNat ≤ 1 := hj
  have : (0x302 : Nat) ≠ 0x300 + j.toNat := by omega
  show (if (0x302 : Nat) = 0x300 + j.toNat then (5 : Byte) else 0) = 0
  rw [if_neg this]
theorem witness_ExecDependsOnlyOnWhatItReads_failing :
    AgreeOnReads (.ldIndVx 1) (ramp 0x0FFF) (((ramp 0x0FFF).setSp 9).setMem [(0x300, 5)]) ∧
    (stateAfter (exec (.ldIndVx 1) (ramp 0x0FFF))).map (·.mem) = some [(0xFFF, 1)] := by
  refine ⟨by simp [AgreeOnReads], by decide⟩
theorem witness_ExecCompletesOrRaisesTheNamedError :
    Completes .cls State.reset ∧ Completes (.ldVxInd 15) (ramp 0x0FF0) ∧ ¬ Completes (.call 0x300) State.reset ∧
    ¬ Completes (.ldIndVx 15) (ramp 0x0FF1) := by
  refine ⟨trivial, witness_block_fits_high.2, id, witness_block_crosses_the_top.2⟩

theorem witness_MemRead_and_MemWrite_clauses : State.reset.mem.wf ∧
    (512 ≤ 512 ∧ 512 < 4096) ∧ (512 ≤ 4095 ∧ 4095 < 4096) ∧ ¬ (512 ≤ 511 ∧ 511 < 4096) ∧
    ¬ (512 ≤ 4096 ∧ 4096 < 4096) := by decide
theorem witness_CanonicalMemoriesThatReadAlikeAreEqual :
    Memory.wf [(512, 1), (4095, 2)] ∧ Memory.wf (Memory.set [(4095, 2)] 512 1) ∧
    ∀ a, Memory.get [(512, 1), (4095, 2)] a = Memory.get (Memory.set [(4095, 2)] 512 1) a :=
  ⟨by decide, by decide, fun _ => rfl⟩
theorem witness_ImageIsPlacedBigEndian :
    State.reset.Inv ∧ 512 ≤ 4094 ∧ 4094 + 2 * [(0x610F : Word)].length ≤ 4096 ∧ [(0x610F : Word)][0]? = some 0x610F := by decide

theorem witness_StepRunsTheDecodedInstruction_wordSlot :
    (prog [0x610F] State.reset).env.timer = .absent ∧ (prog [0x610F] State.reset).env.seq.kind = .wordSlot ∧
    (prog [0x610F] State.reset).env.seq.words[((prog [0x610F] State.reset).pc - (prog [0x610F] State.reset).env.seq.entry).toNat]?
      = some 0x610F ∧ decode 0x610F = .ok (.ldVxKk 1 0x0F) := by decide
theorem witness_StepRunsTheDecodedInstruction_stream :
    (streamed [0x1200] State.reset).env.timer = .absent ∧ (streamed [0x1200] State.reset).env.seq.kind = .stream ∧
    (streamed [0x1200] State.reset).env.seq.words[(streamed [0x1200] State.reset).env.seq.cursor]? = some 0x1200 ∧
    decode 0x1200 = .ok (.jp 0x200) := by decide

/-- A state with a timer agent, DT and ST running, about to run LD V1,DT. -/
def timed : State :=
  let s := (prog [0xF107] State.reset).setDt 9 |>.setSt 4
  s.setEnv { s.env with timer := .present 0 }

theorem witness_TimerAgent : timed.env.timer = .present 0 ∧ timed.timerActs.nextWord = some (0xF107, 0x200) ∧
    decode 0xF107 = .ok (.ldVxDt 1) := ⟨rfl, rfl, by decide⟩

/-- Write 10, read 3, read 7: both draws stay possible after the write, and the draws do not change the bound (R220). -/
theorem test_draws_are_bounded_by_the_write : drawUpTo 3 10 = 3 ∧ drawUpTo 7 10 = 7 ∧
    (((State.reset.setDt 10).tick 3 0).dt, ((State.reset.setDt 10).tick 3 0).dtTop) = (3, 10) := by decide
theorem witness_TimersNeverExceedTheirLastWrittenValue :
    (State.reset.setDt 10).TimersBounded ∧ ((State.reset.setDt 10).tick 3 0).TimersBounded ∧
    ¬ ((State.reset.setDt 10).tick 11 0).TimersBounded ∧
    (stateAfter (step (prog [0xF015] (two 5 0)))).isSome = true ∧
    (stateAfter (State.reset.hostAct (.reg8 .dt 300))).isSome = true := by decide

theorem witness_WordSlotStepMovesPc :
    step (prog [0x3000] State.reset) = .next ((prog [0x3000] State.reset).setPc 0x202) ∧
    decode 0x3000 = .ok (.seVxKk 0 0) := ⟨rfl, by decide⟩
theorem witness_RunEnds_wordSlot : State.reset.env.timer = .absent ∧ State.reset.env.seq.kind = .wordSlot ∧
    State.reset.env.seq.words.length ≤ (State.reset.pc - State.reset.env.seq.entry).toNat := by decide
theorem witness_RunEnds_stream : (streamed [] State.reset).env.seq.kind = .stream ∧
    (streamed [] State.reset).env.seq.words.length ≤ (streamed [] State.reset).env.seq.cursor := by decide
theorem witness_UndecodableWordRaisesAtTheStep :
    (prog [0xFFFF] State.reset).env.policy.onDecodeError = .endRun ∧
    (prog [0xFFFF] State.reset).env.seq.words[((prog [0xFFFF] State.reset).pc - (prog [0xFFFF] State.reset).env.seq.entry).toNat]?
      = some 0xFFFF ∧ decode 0xFFFF = .error ⟨0xFFFF⟩ := by decide

/-- A machine whose host carries on from unimplemented opcodes, about to run RET. -/
def lenient : State :=
  let s := prog [0x00EE] State.reset
  s.setEnv { s.env with policy := { s.env.policy with onUnimplemented := .carryOn } }

theorem witness_ErrorPolicy :
    lenient.timerActs.nextWord = some (0x00EE, 0x200) ∧
    present 0x00EE 0x200 lenient.timerActs.advance = .fault (.raised (.unimplemented .ret) lenient.timerActs.advance) ∧
    lenient.env.policy.reaction (.unimplemented .ret) = .carryOn ∧
    (prog [0x00EE] State.reset).env.policy.reaction (.unimplemented .ret) = .endRun := ⟨rfl, rfl, rfl, rfl⟩
theorem test_carryOn_goes_on : (nextState (step lenient)).map (fun t => (t.pc, t.env.errors)) =
    some (0x201, [.unimplemented .ret]) := by decide

theorem witness_MemoryIsZeroAndReservedBytesStay :
    (stateAfter (step (prog [0xF055] (ramp 0x0200)))).isSome = true ∧ 511 < 512 ∧
    (State.reset.hostWrite 512 7).toOption.isSome = true := by decide
theorem witness_StepKeepsTheInvariant :
    (prog [0xFF55] (ramp 0x0FF0)).Inv ∧ (nextState (step (prog [0xFF55] (ramp 0x0FF0)))).isSome = true ∧
    (stateAfter (step (prog [0xFF55] (ramp 0x0FF1)))).isSome = true := by decide
theorem witness_HostPortsKeepTheInvariant : State.reset.Inv ∧ (State.reset.hostWrite 4095 1).toOption.isSome = true ∧
    (stateAfter (loadImage 0x200 [0x610F] State.reset)).isSome = true := by decide
theorem witness_OnlyNamedInstructions :
    ((after (two 5 0) 0xF015).map (·.dt) = some 5 ∧ (two 5 0).dt = 0) ∧
    ((after (two 5 0) 0xF018).map (·.st) = some 5 ∧ (two 5 0).st = 0) ∧
    ((after (two 5 0) 0xF01E).map (·.i) = some 5 ∧ (after (two 5 0) 0xA300).map (·.i) = some 0x300 ∧ (two 5 0).i = 0) ∧
    ((after (ramp 0x0300) 0xF055).map (·.mem) = some [(0x300, 1)] ∧ (ramp 0x0300).mem = []) := by decide
theorem witness_RunsWithoutErrorWordsAreSafe : (prog [0x6005, 0x1200] State.reset).OnlyCompleting := by
  intro w hw
  have hw : w = 0x6005 ∨ w = 0x1200 := by simpa [prog] using hw
  rcases hw with rfl | rfl
  · exact ⟨.ldVxKk 0 5, by decide, fun _ => trivial⟩
  · exact ⟨.jp 0x200, by decide, fun _ => trivial⟩
theorem witness_RunsWithoutErrorWordsAreSafe_host : HostSilent [[], []] ∧
    ∀ turn ∈ [[HostAct.memWrite 512 1, .reg16 .pc 0x201], [.memRead 4095, .reg8 .sp 3]],
      ∀ act ∈ turn, act.inWindow = true := by
  refine ⟨by simp [HostSilent], by decide⟩
/-- The host's write below the window raises, and the run ends under the reference policy (R65, R212, R217). -/
theorem test_host_error_ends_the_run :
    runHosted [[.memWrite 511 1]] State.reset = .fault (.raised (.addressRange 511) State.reset) := rfl
theorem witness_DisassembleToStringJoinsTheDumps : ∀ w ∈ [(0x00E0 : Word), 0x2300], ∃ i, decode w = .ok i := by
  intro w hw
  have hw : w = 0x00E0 ∨ w = 0x2300 := by simpa using hw
  rcases hw with rfl | rfl
  · exact ⟨.cls, by decide⟩
  · exact ⟨.call 0x300, by decide⟩

end Sys2Proof.Tests
end

section
/-! PROOF. Where a block transfer stops, and from it when an instruction completes and which error it raises otherwise
(spec/00_scope.md R8, spec/40_control_flow.md R149, spec/60_exceptions.md R210 to R214). -/

namespace Sys2Proof.Machine

/-! ### The first invalid address of a block transfer -/

/-- Where a block transfer stops is outside the window (R79, R212). -/
theorem State.isValidAddress_firstBadAddr (s : State) : isValidAddress s.firstBadAddr = false := by
  unfold State.firstBadAddr
  split
  · rfl
  · rename_i hi
    exact Bool.eq_false_iff.2 hi

/-- Every address from I up to where the transfer stops is valid. -/
theorem State.isValidAddress_of_lt_firstBadAddr {s : State} {a : Nat} (hI : s.i.toNat ≤ a)
    (ha : a < s.firstBadAddr) : isValidAddress a = true := by
  unfold State.firstBadAddr at ha
  split at ha
  · rename_i hi
    rw [isValidAddress_iff] at hi ⊢
    exact ⟨hi.1.trans hI, ha⟩
  · omega

/-- A block that does not fit reaches the address where the transfer stops, and reaches it from I upwards. -/
theorem State.firstBadAddr_mem_block {s : State} {x : RegIdx} (h : ¬ s.blockFits x) :
    s.i.toNat ≤ s.firstBadAddr ∧ s.firstBadAddr ≤ s.i.toNat + x.toNat := by
  simp only [State.blockFits, Config.memThreshold, Config.memSize] at h
  simp only [State.firstBadAddr, isValidAddress_iff, Config.memSize]
  split <;> omega

/-- The indices of a block split at any of them: exactly the lower ones come before it. -/
theorem blockIndices_split {x k : RegIdx} (hk : k.toNat ≤ x.toNat) :
    ∃ js ks, blockIndices x = js ++ k :: ks ∧ ∀ j, j ∈ js ↔ j.toNat < k.toNat := by
  have hsplit : blockIndices x = (List.range k.toNat).map (BitVec.ofNat 4) ++
      k :: (List.range (x.toNat - k.toNat)).map (fun n => BitVec.ofNat 4 (k.toNat + 1 + n)) := by
    rw [blockIndices, show x.toNat + 1 = k.toNat + 1 + (x.toNat - k.toNat) by omega, List.range_add, List.range_succ]
    simp [Function.comp_def]
  refine ⟨_, _, hsplit, fun j => ?_⟩
  simp only [List.mem_map, List.mem_range]
  constructor
  · rintro ⟨n, hn, rfl⟩
    exact (Nat.mod_le _ _).trans_lt hn
  · exact fun hj => ⟨j.toNat, hj, by simp⟩

/-- The indices of a block that does not fit, split at the first invalid address: exactly the indices with a lower
address come before it. -/
theorem State.blockIndices_split_firstBadAddr {s : State} {x : RegIdx} (h : ¬ s.blockFits x) :
    ∃ js k ks, blockIndices x = js ++ k :: ks ∧ s.blockAddr k = s.firstBadAddr ∧
      ∀ j, j ∈ js ↔ s.blockAddr j < s.firstBadAddr := by
  obtain ⟨hlow, hhigh⟩ := State.firstBadAddr_mem_block h
  have hx : x.toNat < 16 := x.isLt
  obtain ⟨k, hk⟩ : ∃ k : RegIdx, k.toNat = s.firstBadAddr - s.i.toNat :=
    ⟨BitVec.ofNat 4 (s.firstBadAddr - s.i.toNat), BitVec.toNat_ofNat .. ▸ Nat.mod_eq_of_lt (by omega)⟩
  obtain ⟨js, ks, hsplit, hjs⟩ := blockIndices_split (x := x) (k := k) (by omega)
  refine ⟨js, k, ks, hsplit, ?_, fun j => ?_⟩
  · unfold State.blockAddr; omega
  · rw [hjs]; unfold State.blockAddr; omega

/-! ### The two block transfers -/

/-- A store block that fits completes, and only memory changes (R166). -/
theorem execLdIndVx_of_blockFits {s : State} {x : RegIdx} (h : s.blockFits x) :
    ∃ m, StoredOnly s (blockIndices x) m ∧ execLdIndVx x s = .next (s.setMem m) := by
  obtain ⟨m, hm, ⟨-, hnext⟩ | ⟨j, hj, hbad, -⟩⟩ := storeBlock_outcome (blockIndices x) s
  · exact ⟨m, hm, hnext⟩
  · rw [s.blockFits_iff x |>.1 h j hj] at hbad; cases hbad

/-- A load block that fits completes, and only its registers change (R167). -/
theorem execLdVxInd_of_blockFits {s : State} {x : RegIdx} (h : s.blockFits x) :
    ∃ t, LoadedOnly s (blockIndices x) t ∧ execLdVxInd x s = .next t := by
  obtain ⟨t, ht, ⟨-, hnext⟩ | ⟨j, hj, hbad, -⟩⟩ := loadBlock_outcome (blockIndices x) s
  · exact ⟨t, ht, hnext⟩
  · rw [s.blockFits_iff x |>.1 h j hj] at hbad; cases hbad

/-- A store block that does not fit completes the stores below the first invalid address and raises for that address
(R166, R212, D12). -/
theorem execLdIndVx_of_not_blockFits {s : State} {x : RegIdx} (h : ¬ s.blockFits x) :
    ∃ js m, (∀ j, j ∈ js ↔ s.blockAddr j < s.firstBadAddr) ∧ StoredOnly s js m ∧
      storeBlock js s = .next (s.setMem m) ∧
      execLdIndVx x s = raise (.addressRange s.firstBadAddr) (s.setMem m) := by
  obtain ⟨js, k, ks, hsplit, hk, hjs⟩ := State.blockIndices_split_firstBadAddr h
  have hvalid : ∀ j ∈ js, isValidAddress (s.blockAddr j) = true := fun j hj =>
    State.isValidAddress_of_lt_firstBadAddr (Nat.le_add_right _ _) ((hjs j).1 hj)
  obtain ⟨m, hm, hdone, hstop⟩ := storeBlock_stops ks hvalid (hk ▸ s.isValidAddress_firstBadAddr)
  refine ⟨js, m, hjs, hm, hdone, ?_⟩
  rw [execLdIndVx, hsplit, hstop, hk]

/-- A load block that does not fit completes the loads below the first invalid address and raises for that address
(R167, R212, D12). -/
theorem execLdVxInd_of_not_blockFits {s : State} {x : RegIdx} (h : ¬ s.blockFits x) :
    ∃ js t, (∀ j, j ∈ js ↔ s.blockAddr j < s.firstBadAddr) ∧ LoadedOnly s js t ∧
      loadBlock js s = .next t ∧ execLdVxInd x s = raise (.addressRange s.firstBadAddr) t := by
  obtain ⟨js, k, ks, hsplit, hk, hjs⟩ := State.blockIndices_split_firstBadAddr h
  have hvalid : ∀ j ∈ js, isValidAddress (s.blockAddr j) = true := fun j hj =>
    State.isValidAddress_of_lt_firstBadAddr (Nat.le_add_right _ _) ((hjs j).1 hj)
  obtain ⟨t, ht, hdone, hstop⟩ := loadBlock_stops ks hvalid (hk ▸ s.isValidAddress_firstBadAddr)
  refine ⟨js, t, hjs, ht, hdone, ?_⟩
  rw [execLdVxInd, hsplit, hstop, hk]

/-! ### Every instruction -/

/-- An instruction whose condition holds completes: a block transfer because its bytes fit, any other at once (R149). -/
theorem exec_of_completes {i : Instr} {s : State} (h : Completes i s) : ∃ t, exec i s = .next t := by
  cases i with
  | ret | call | sys => exact False.elim h
  | ldIndVx x =>
    obtain ⟨m, -, hnext⟩ := execLdIndVx_of_blockFits h
    exact ⟨_, hnext⟩
  | ldVxInd x =>
    obtain ⟨t, -, hnext⟩ := execLdVxInd_of_blockFits h
    exact ⟨_, hnext⟩
  | _ => exact ⟨_, rfl⟩

/-- An instruction whose condition fails raises the error the spec names: it is RET, CALL, SYS (R213) or a block
transfer that does not fit (R212). -/
theorem exec_of_not_completes {i : Instr} {s : State} (h : ¬ Completes i s) :
    ∃ e t, errorOf i s = some e ∧ exec i s = raise e t := by
  cases i with
  | ret | call | sys => exact ⟨_, s, rfl, rfl⟩
  | ldIndVx x =>
    obtain ⟨-, m, -, -, -, hraise⟩ := execLdIndVx_of_not_blockFits h
    exact ⟨_, _, rfl, hraise⟩
  | ldVxInd x =>
    obtain ⟨-, t, -, -, -, hraise⟩ := execLdVxInd_of_not_blockFits h
    exact ⟨_, _, rfl, hraise⟩
  | _ => exact absurd trivial h

/-- Settles O36: the two sides of `Completes`, one lemma each. -/
theorem execCompletesOrRaisesTheNamedError : Obligations.ExecCompletesOrRaisesTheNamedError :=
  fun _ _ => ⟨exec_of_completes, exec_of_not_completes⟩

end Sys2Proof.Machine
end

section
/-! PROOF. A step is Execute of the decoded instruction after the fetch's advance (spec/00_scope.md R10, R11,
spec/70_reset_and_hazards.md R252 to R254, spec/60_exceptions.md R217). -/

namespace Sys2Proof.Machine

/-- When the word offered after the timer agent's turn decodes, the step is Execute of it after the advance, under the
host's policy (R11, R252). -/
theorem step_of_decode {s : State} {w : Word} {a : Nat} {i : Instr} (hw : s.timerActs.nextWord = some (w, a))
    (hd : decode w = .ok i) : step s = settle s.env.policy (exec i s.timerActs.advance) := by
  obtain ⟨-, -, -, -, -, -, hpolicy, -, -, -⟩ := s.timerActs_keeps
  simp only [step, runStep, hw, present_ok hd, hpolicy]

/-- With no timer agent the word is the one in the slot of the state itself (R220, R252). -/
theorem step_of_decode_slot {s : State} {w : Word} {i : Instr} (ht : s.env.timer = .absent)
    (hw : s.env.seq.words[s.slot]? = some w) (hd : decode w = .ok i) :
    step s = settle s.env.policy (exec i s.advance) := by
  have hquiet := State.timerActs_absent ht
  have hnext : s.timerActs.nextWord = some (w, s.env.seq.base + 2 * s.slot) := by
    rw [hquiet]
    exact State.nextWord_some hw
  rw [step_of_decode hnext hd, hquiet]

/-- The reference policy ends the run on every kind of error, so it changes no outcome (R217). -/
theorem settle_endRun (o : Result) : settle ⟨.endRun, .endRun, .endRun⟩ o = o := by
  match o with
  | .next _ => rfl
  | .fault (.raised e s) => cases e <;> rfl
  | .fault (.runEnded _) => rfl
  | .refused _ => rfl

/-- Settles O43: each sequencer names its slot and its advance, and the timer agent acts before the fetch. -/
theorem stepRunsTheDecodedInstruction : Obligations.StepRunsTheDecodedInstruction := by
  refine ⟨fun s w i ht hkind hw hd => ?_, fun s w i ht hkind hw hd => ?_, fun _ _ _ _ => step_of_decode, settle_endRun⟩
  · rw [← State.slot_wordSlot hkind] at hw
    rw [step_of_decode_slot ht hw hd, State.advance_wordSlot hkind]
  · rw [← State.slot_stream hkind] at hw
    rw [step_of_decode_slot ht hw hd, State.advance_stream hkind]

end Sys2Proof.Machine
end

section
/-! PROOF. What Execute and a step can do to memory, once, and from it the invariant and the reserved bytes
(spec/10_state.md R36, R40, spec/20_memory.md R61, R66, R71). -/

namespace Sys2Proof.Machine

/-! ### The indices a block transfer reaches -/

/-- The indices of a block transfer whose byte is transferred: those below the first invalid address, each once. -/
structure State.Transferred (s : State) (x : RegIdx) (js : List RegIdx) : Prop where
  nodup : js.Nodup
  mem_iff : ∀ j, j ∈ js ↔ j.toNat ≤ x.toNat ∧ s.blockAddr j < s.firstBadAddr

/-- In a block that fits, every address is below the first invalid one. -/
theorem State.blockAddr_lt_firstBadAddr {s : State} {x j : RegIdx} (h : s.blockFits x) (hj : j.toNat ≤ x.toNat) :
    s.blockAddr j < s.firstBadAddr := by
  obtain ⟨hlow, hhigh⟩ := h
  have hvalid : isValidAddress s.i.toNat = true := (isValidAddress_iff _).2 ⟨hlow, (Nat.le_add_right _ _).trans_lt hhigh⟩
  rw [State.firstBadAddr, if_pos hvalid]
  exact (Nat.add_le_add_left hj _).trans_lt hhigh

/-- A block that fits is transferred whole. -/
theorem State.transferred_of_blockFits {s : State} {x : RegIdx} (h : s.blockFits x) :
    s.Transferred x (blockIndices x) :=
  ⟨blockIndices_nodup x, fun j => by
    rw [mem_blockIndices]
    exact ⟨fun hj => ⟨hj, State.blockAddr_lt_firstBadAddr h hj⟩, And.left⟩⟩

/-- A block that does not fit is transferred up to an index with an invalid address. -/
theorem State.transferred_of_not_blockFits {s : State} {x : RegIdx} (h : ¬ s.blockFits x) :
    ∃ js k ks, blockIndices x = js ++ k :: ks ∧ s.Transferred x js ∧
      (∀ j ∈ js, isValidAddress (s.blockAddr j) = true) ∧ isValidAddress (s.blockAddr k) = false := by
  obtain ⟨js, k, ks, hsplit, hk, hjs⟩ := State.blockIndices_split_firstBadAddr h
  have hnodup : (js ++ k :: ks).Nodup := hsplit ▸ blockIndices_nodup x
  have hle : ∀ j ∈ js, j.toNat ≤ x.toNat := fun j hj =>
    (mem_blockIndices x j).1 (hsplit ▸ List.mem_append_left _ hj)
  refine ⟨js, k, ks, hsplit, ⟨(List.nodup_append.1 hnodup).1, fun j => ?_⟩, fun j hj => ?_,
    hk ▸ s.isValidAddress_firstBadAddr⟩
  · exact ⟨fun hj => ⟨hle j hj, (hjs j).1 hj⟩, fun hj => (hjs j).2 hj.2⟩
  · exact State.isValidAddress_of_lt_firstBadAddr (Nat.le_add_right _ _) ((hjs j).1 hj)

/-- LD [I],Vx, completing or not, leaves the state after the stores of the transferred indices (R166, D12). -/
theorem execLdIndVx_leaves (s : State) (x : RegIdx) :
    ∃ js m, s.Transferred x js ∧ StoredOnly s js m ∧ storeBlock js s = .next (s.setMem m) ∧
      stateAfter (exec (.ldIndVx x) s) = some (s.setMem m) := by
  by_cases hfit : s.blockFits x
  · obtain ⟨m, hm, hnext⟩ := execLdIndVx_of_blockFits hfit
    exact ⟨_, m, State.transferred_of_blockFits hfit, hm, hnext, by rw [exec, hnext]; rfl⟩
  · obtain ⟨js, k, ks, hsplit, hjs, hvalid, hbad⟩ := State.transferred_of_not_blockFits hfit
    obtain ⟨m, hm, hdone, hstop⟩ := storeBlock_stops ks hvalid hbad
    exact ⟨js, m, hjs, hm, hdone, by rw [exec, execLdIndVx, hsplit, hstop]; rfl⟩

/-- LD Vx,[I], completing or not, leaves the state after the loads of the transferred indices (R167, D12). -/
theorem execLdVxInd_leaves (s : State) (x : RegIdx) :
    ∃ js t, s.Transferred x js ∧ LoadedOnly s js t ∧ loadBlock js s = .next t ∧
      stateAfter (exec (.ldVxInd x) s) = some t := by
  by_cases hfit : s.blockFits x
  · obtain ⟨t, ht, hnext⟩ := execLdVxInd_of_blockFits hfit
    exact ⟨_, t, State.transferred_of_blockFits hfit, ht, hnext, by rw [exec, hnext]; rfl⟩
  · obtain ⟨js, k, ks, hsplit, hjs, hvalid, hbad⟩ := State.transferred_of_not_blockFits hfit
    obtain ⟨t, ht, hdone, hstop⟩ := loadBlock_stops ks hvalid hbad
    exact ⟨js, t, hjs, ht, hdone, by rw [exec, execLdVxInd, hsplit, hstop]; rfl⟩

/-! ### Memory over Execute and over a step -/

/-- Everything Execute can do to memory: LD [I],Vx stores through the controller, every other instruction leaves it, as
data (R66). -/
theorem exec_mem_cases {i : Instr} {s t : State} (h : stateAfter (exec i s) = some t) :
    t.mem = s.mem ∨ ∃ x js, i = .ldIndVx x ∧ StoredOnly s js t.mem := by
  cases i with
  | ldIndVx x =>
    obtain ⟨js, m, -, hm, -, hleaves⟩ := execLdIndVx_leaves s x
    cases hleaves.symm.trans h
    exact .inr ⟨x, js, rfl, hm⟩
  | ldVxInd x =>
    obtain ⟨js, u, -, hu, -, hleaves⟩ := execLdVxInd_leaves s x
    cases hleaves.symm.trans h
    exact .inl hu.mem
  | seVxKk | seVxVy | sneVxKk | sneVxVy => cases h; exact .inl (State.skipIf_mem _ _)
  | _ => cases h; exact .inl rfl

/-- Everything a step can do to memory, whatever its outcome: it is kept, as data, or bytes are stored through the
controller, in a state with the memory the step began with (R66). -/
theorem step_mem_cases {s t : State} (h : stateAfter (step s) = some t) :
    t.mem = s.mem ∨ ∃ u js, u.mem = s.mem ∧ StoredOnly u js t.mem := by
  have htimer : s.timerActs.mem = s.mem := by
    obtain ⟨-, -, -, -, hmem, -⟩ := s.timerActs_keeps
    exact hmem
  have hadvance : s.timerActs.advance.mem = s.mem := by
    obtain ⟨-, -, -, -, -, hmem, -⟩ := s.timerActs.advance_keeps
    exact hmem.trans htimer
  rcases step_leaves h with ⟨-, rfl⟩ | ⟨w, a, -, u, htu, hu⟩
  · exact .inl htimer
  · have htmem : t.mem = u.mem := by
      rcases htu with rfl | ⟨e, rfl⟩ <;> rfl
    rw [htmem]
    rcases hu with ⟨-, rfl⟩ | ⟨i, -, hi⟩
    · exact .inl hadvance
    · rcases exec_mem_cases hi with hkeep | ⟨x, js, -, hstored⟩
      · exact .inl (hkeep.trans hadvance)
      · exact .inr ⟨_, js, hadvance, hstored⟩

/-- Every state a step leaves, as next state or with a fault, meets the invariant if the state before does. -/
theorem step_keeps_inv {s t : State} (hs : s.Inv) (h : stateAfter (step s) = some t) : t.Inv := by
  rcases step_mem_cases h with hkeep | ⟨u, js, hu, hstored⟩
  · unfold State.Inv; rwa [hkeep]
  · obtain ⟨hwf, hwindow⟩ := hs
    rw [← hu] at hwf hwindow
    exact ⟨hstored.wf hwf, hstored.window hwindow⟩

/-- Settles O51: a next state is one of the states a step leaves. -/
theorem stepKeepsTheInvariant : Obligations.StepKeepsTheInvariant := by
  refine fun s hs => ⟨fun t ht => ?_, fun t => step_keeps_inv hs⟩
  exact step_keeps_inv hs (congrArg stateAfter ht)

/-! ### The reserved bytes -/

/-- No reserved address is valid (R61). -/
theorem isValidAddress_ne_of_lt {a b : Nat} (ha : a < 512) (hb : isValidAddress b = true) : a ≠ b := by
  have := (isValidAddress_iff b).1 hb
  omega

/-- A reserved byte keeps its value through every step, completing or not. -/
theorem step_keeps_reserved {s t : State} {a : Nat} (ha : a < 512) (h : stateAfter (step s) = some t) :
    t.mem.get a = s.mem.get a := by
  rcases step_mem_cases h with hkeep | ⟨u, js, hu, hstored⟩
  · rw [hkeep]
  · rw [hstored.other a fun j _ hvalid => (isValidAddress_ne_of_lt ha hvalid).symm, hu]

/-- A reserved byte keeps its value through every host write. -/
theorem hostWrite_keeps_reserved {s t : State} {a b n : Nat} (ha : a < 512) (h : s.hostWrite b n = .ok t) :
    t.mem.get a = s.mem.get a := by
  rw [State.hostWrite] at h
  rcases s.memWrite_cases b (BitVec.ofNat 8 n) with ⟨hvalid, hok⟩ | ⟨-, herror⟩
  · cases hok.symm.trans h
    exact Memory.get_set_other _ _ (isValidAddress_ne_of_lt ha hvalid)
  · cases herror.symm.trans h

/-- Settles O49: construction lists no byte, and neither a step nor the host writes below the window. -/
theorem memoryIsZeroAndReservedBytesStay : Obligations.MemoryIsZeroAndReservedBytesStay :=
  ⟨fun _ _ => rfl, fun _ _ _ => step_keeps_reserved, fun _ _ _ _ _ => hostWrite_keeps_reserved⟩

end Sys2Proof.Machine
end

section
/-! PROOF. Canonical memories are determined by what they read as (spec/10_state.md R36, R40, log 5). -/

namespace Sys2Proof.Machine

/-- A canonical memory lists exactly the addresses that do not read as 0, each with what it reads as. -/
theorem Memory.mem_iff_get {m : Memory} (h : m.wf) (c : Host.Cell) : c ∈ m ↔ m.get c.1 = c.2 ∧ c.2 ≠ 0 := by
  obtain ⟨hrising, hnonzero⟩ := h
  refine ⟨fun hc => ⟨Memory.get_listed hrising hc, hnonzero c hc⟩, fun ⟨hget, hne⟩ => ?_⟩
  by_contra hc
  have hunlisted : ∀ d ∈ m, d.1 ≠ c.1 := by
    intro d hd heq
    have hsnd : d.2 = c.2 := by rw [← hget, ← heq, Memory.get_listed hrising hd]
    exact hc (Prod.ext heq hsnd ▸ hd)
  exact hne (hget ▸ Memory.get_unlisted hunlisted)

/-- Settles O40: two lists with rising addresses and the same entries are the same list. -/
theorem canonicalMemoriesThatReadAlikeAreEqual : Obligations.CanonicalMemoriesThatReadAlikeAreEqual := by
  intro m n hm hn hget
  have : Std.Irrefl fun c d : Host.Cell => c.1 < d.1 := ⟨fun c => Nat.lt_irrefl c.1⟩
  have : Std.Antisymm fun c d : Host.Cell => c.1 < d.1 := ⟨fun _ _ h h' => absurd h' (Nat.lt_asymm h)⟩
  refine hm.1.eq_of_mem_iff hn.1 fun c => ?_
  rw [Memory.mem_iff_get hm, Memory.mem_iff_get hn, hget]

end Sys2Proof.Machine
end

section
/-! PROOF. The footprint of each register write, and from these of every instruction and of the host's register ports
(spec/10_state.md R22, R23, R26 to R34, R38, R39, spec/20_memory.md R66, spec/40_control_flow.md R149). -/

namespace Sys2Proof.Machine

/-! ### One register -/

theorem State.setI_bounds (s : State) (w : Word) : ({ i := true } : Footprint).Bounds s (s.setI w) := by
  simp [Footprint.Bounds]

theorem State.setPc_bounds (s : State) (w : Word) : Footprint.pcOnly.Bounds s (s.setPc w) := by
  simp [Footprint.Bounds, Footprint.pcOnly]

theorem State.setSp_bounds (s : State) (b : Byte) : ({ sp := true } : Footprint).Bounds s (s.setSp b) := by
  simp [Footprint.Bounds]

theorem State.setDt_bounds (s : State) (b : Byte) : ({ dt := true } : Footprint).Bounds s (s.setDt b) := by
  simp [Footprint.Bounds]

theorem State.setSt_bounds (s : State) (b : Byte) : ({ st := true } : Footprint).Bounds s (s.setSt b) := by
  simp [Footprint.Bounds]

/-! ### Every instruction -/

/-- LD [I],Vx, completing or not, changes only the bytes it transfers. -/
theorem execLdIndVx_bounds {s t : State} {x : RegIdx} (h : stateAfter (exec (.ldIndVx x) s) = some t) :
    (footprint (.ldIndVx x) s).Bounds s t := by
  obtain ⟨js, m, hjs, hm, -, hleaves⟩ := execLdIndVx_leaves s x
  cases hleaves.symm.trans h
  refine hm.bounds fun j hj => ?_
  obtain ⟨hle, hlt⟩ := (hjs.mem_iff j).1 hj
  simpa [footprint, State.blockAddr] using ⟨hle, hlt⟩

/-- LD Vx,[I], completing or not, changes only the registers it transfers. -/
theorem execLdVxInd_bounds {s t : State} {x : RegIdx} (h : stateAfter (exec (.ldVxInd x) s) = some t) :
    (footprint (.ldVxInd x) s).Bounds s t := by
  obtain ⟨js, u, hjs, hu, -, hleaves⟩ := execLdVxInd_leaves s x
  cases hleaves.symm.trans h
  refine hu.bounds fun j hj => ?_
  obtain ⟨hle, hlt⟩ := (hjs.mem_iff j).1 hj
  simpa [footprint, State.blockAddr] using ⟨hle, hlt⟩

/-- Settles O34: every instruction is one shared write, or a block transfer, or changes nothing. -/
theorem execWritesOnlyItsFootprint : Obligations.ExecWritesOnlyItsFootprint := by
  intro i s t h
  cases i with
  | cls | ret | call | sys => cases h; exact Footprint.Bounds.refl _ _
  | jp => cases h; exact State.setPc_bounds _ _
  | seVxKk | seVxVy | sneVxKk | sneVxVy => cases h; exact State.skipIf_bounds _ _
  | ldVxKk | ldVxVy | ldVxDt | addVxKk | orVxVy | andVxVy | xorVxVy => cases h; exact State.writeV_bounds _ _ _
  | ldINnn | addIVx => cases h; exact State.setI_bounds _ _
  | ldDtVx => cases h; exact State.setDt_bounds _ _
  | ldStVx => cases h; exact State.setSt_bounds _ _
  | ldIndVx => exact execLdIndVx_bounds h
  | ldVxInd => exact execLdVxInd_bounds h
  | addVxVy | subVxVy | subnVxVy | shrVxVy | shlVxVy => cases h; exact State.writeFlagged_bounds _ _ _

/-! ### The host's register ports and construction -/

/-- What a write through `reg8` puts in a register is read back from it (R38). -/
theorem State.reg8Read_reg8Write (s : State) (r : Reg8) (n : Nat) : (s.reg8Write r n).reg8Read r = BitVec.ofNat 8 n := by
  cases r with
  | v x => simp [State.reg8Write, State.reg8Read]
  | dt | st | sp => rfl

/-- What a write through `reg16` puts in a register is read back from it (R39). -/
theorem State.reg16Read_reg16Write (s : State) (r : Reg16) (n : Nat) :
    (s.reg16Write r n).reg16Read r = BitVec.ofNat 16 n := by
  cases r <;> rfl

/-- The number in a register after a write through `reg8` (R22). -/
theorem State.reg8Write_toNat (s : State) (r : Reg8) (n : Nat) : ((s.reg8Write r n).reg8Read r).toNat = n % 256 := by
  rw [State.reg8Read_reg8Write, BitVec.toNat_ofNat]

/-- The number in a register after a write through `reg16` (R39). -/
theorem State.reg16Write_toNat (s : State) (r : Reg16) (n : Nat) :
    ((s.reg16Write r n).reg16Read r).toNat = n % 65536 := by
  rw [State.reg16Read_reg16Write, BitVec.toNat_ofNat]

/-- Settles O41: each port name is one register write, with its footprint and the number read back. -/
theorem registerPortsStoreModuloTheWidth : Obligations.RegisterPortsStoreModuloTheWidth := fun s n =>
  ⟨fun x => ⟨s.reg8Write_toNat (.v x) n, s.writeV_bounds x _⟩,
    ⟨s.reg8Write_toNat .dt n, s.setDt_bounds _⟩, ⟨s.reg8Write_toNat .st n, s.setSt_bounds _⟩,
    ⟨s.reg8Write_toNat .sp n, s.setSp_bounds _⟩, ⟨s.reg16Write_toNat .i n, s.setI_bounds _⟩,
    ⟨s.reg16Write_toNat .pc n, s.setPc_bounds _⟩,
    fun r => s.reg8Read_reg8Write r n, fun r => s.reg16Read_reg16Write r n⟩

/-- A constructed state lists no byte, so it meets the invariant (R40). -/
theorem construct_inv (r : ResetRegs) : (State.construct r).Inv :=
  ⟨construct_mem_wf r, fun _ hc => absurd hc List.not_mem_nil⟩

/-- Settles O50: construction copies the given registers, and each timer is its own bound. -/
theorem constructedStatesMeetTheInvariant : Obligations.ConstructedStatesMeetTheInvariant :=
  ⟨fun r => ⟨construct_inv r, fun _ => rfl, rfl, rfl, rfl, rfl, rfl, Nat.le_refl _, Nat.le_refl _⟩, .named, rfl⟩

end Sys2Proof.Machine
end

section
/-! PROOF. The outcome of an instruction, and what it leaves in its footprint, depend only on what it reads
(spec/10_state.md R23, R27, R32, R34, spec/20_memory.md R66, spec/43_shift.md R202, D12). -/

namespace Sys2Proof.Machine

/-! ### The outcome's kind -/

/-- Execute always leaves a state. -/
theorem exists_stateAfter_exec (i : Instr) (s : State) : ∃ t, stateAfter (exec i s) = some t := by
  by_cases hc : Completes i s
  · obtain ⟨t, ht⟩ := exec_of_completes hc
    exact ⟨t, congrArg stateAfter ht⟩
  · obtain ⟨e, t, -, ht⟩ := exec_of_not_completes hc
    exact ⟨t, congrArg stateAfter ht⟩

/-- The state Execute leaves is a next state exactly when the instruction completes. -/
theorem exec_eq_next_iff {i : Instr} {s t : State} (h : stateAfter (exec i s) = some t) :
    exec i s = .next t ↔ Completes i s := by
  by_cases hc : Completes i s
  · obtain ⟨u, hu⟩ := exec_of_completes hc
    rw [hu] at h
    cases h
    exact iff_of_true hu hc
  · obtain ⟨e, u, -, hu⟩ := exec_of_not_completes hc
    exact iff_of_false (by simp [hu, raise]) hc

/-- An instruction that completes raises no error. -/
theorem errorIn_exec_of_completes {i : Instr} {s : State} (h : Completes i s) : errorIn (exec i s) = none := by
  obtain ⟨t, ht⟩ := exec_of_completes h
  exact congrArg errorIn ht

/-- An instruction that does not complete raises the error the spec names. -/
theorem errorIn_exec_of_not_completes {i : Instr} {s : State} (h : ¬ Completes i s) :
    errorIn (exec i s) = errorOf i s := by
  obtain ⟨e, t, he, ht⟩ := exec_of_not_completes h
  exact (congrArg errorIn ht).trans he.symm

/-! ### States that agree on what is read -/

/-- Where a block transfer stops depends on I alone. -/
theorem State.firstBadAddr_congr {s u : State} (h : u.i = s.i) : u.firstBadAddr = s.firstBadAddr := by
  simp only [State.firstBadAddr, h]

/-- The address of a transferred byte depends on I alone. -/
theorem State.blockAddr_congr {s u : State} (h : u.i = s.i) (j : RegIdx) : u.blockAddr j = s.blockAddr j := by
  simp only [State.blockAddr, h]

/-- Whether an instruction completes depends only on what it reads. -/
theorem AgreeOnReads.completes_iff {i : Instr} {s u : State} (h : AgreeOnReads i s u) :
    Completes i u ↔ Completes i s := by
  obtain ⟨-, -, hI, -⟩ := h
  cases i with
  | ldIndVx | ldVxInd => simp only [Completes, State.blockFits, hI rfl]
  | _ => rfl

/-- The error an instruction would raise depends only on what it reads. -/
theorem AgreeOnReads.errorOf_eq {i : Instr} {s u : State} (h : AgreeOnReads i s u) : errorOf i u = errorOf i s := by
  obtain ⟨-, -, hI, -⟩ := h
  cases i with
  | ldIndVx | ldVxInd => simp only [errorOf, State.firstBadAddr_congr (hI rfl)]
  | _ => rfl

/-- The error raised, if any, depends only on what the instruction reads. -/
theorem AgreeOnReads.errorIn_eq {i : Instr} {s u : State} (h : AgreeOnReads i s u) :
    errorIn (exec i u) = errorIn (exec i s) := by
  by_cases hc : Completes i s
  · rw [errorIn_exec_of_completes hc, errorIn_exec_of_completes (h.completes_iff.2 hc)]
  · rw [errorIn_exec_of_not_completes hc, errorIn_exec_of_not_completes (h.completes_iff.not.2 hc), h.errorOf_eq]

/-! ### What the block transfers leave -/

/-- Every transferred byte of LD [I],Vx holds its register afterwards, whatever the outcome (R166, D12). -/
theorem execLdIndVx_get {s t : State} {x j : RegIdx} (hw : s.mem.wf) (hj : j.toNat ≤ x.toNat)
    (hlt : s.blockAddr j < s.firstBadAddr) (h : stateAfter (exec (.ldIndVx x) s) = some t) :
    t.mem.get (s.blockAddr j) = s.readV j := by
  obtain ⟨js, m, hjs, -, hdone, hleaves⟩ := execLdIndVx_leaves s x
  cases hleaves.symm.trans h
  exact storeBlock_stored hjs.nodup hw hdone j ((hjs.mem_iff j).2 ⟨hj, hlt⟩)

/-- Every transferred register of LD Vx,[I] holds its byte afterwards, whatever the outcome (R167, D12). -/
theorem execLdVxInd_readV {s t : State} {x j : RegIdx} (hj : j.toNat ≤ x.toNat)
    (hlt : s.blockAddr j < s.firstBadAddr) (h : stateAfter (exec (.ldVxInd x) s) = some t) :
    t.readV j = s.mem.get (s.blockAddr j) := by
  obtain ⟨js, u, hjs, -, hdone, hleaves⟩ := execLdVxInd_leaves s x
  cases hleaves.symm.trans h
  exact loadBlock_loaded hjs.nodup hdone j ((hjs.mem_iff j).2 ⟨hj, hlt⟩)

/-- Every address from I to `I + x` is the address of one of the indices `0..=x` (R78). -/
theorem State.exists_blockAddr_eq {s : State} {x : RegIdx} {a : Nat} (hlow : s.i.toNat ≤ a)
    (hhigh : a ≤ s.i.toNat + x.toNat) : ∃ j : RegIdx, j.toNat ≤ x.toNat ∧ s.blockAddr j = a := by
  have hx : x.toNat < 16 := x.isLt
  have hj : (BitVec.ofNat 4 (a - s.i.toNat)).toNat = a - s.i.toNat := by
    rw [BitVec.toNat_ofNat]
    exact Nat.mod_eq_of_lt (by omega)
  refine ⟨BitVec.ofNat 4 (a - s.i.toNat), by omega, ?_⟩
  rw [State.blockAddr, hj]
  omega

/-! ### What is left in the footprint -/

/-- `t'` agrees with `t` on every register of the footprint. -/
def Footprint.RegsAgree (f : Footprint) (t t' : State) : Prop :=
  (∀ j, f.v j = true → t'.readV j = t.readV j) ∧
  (f.i = true → t'.i = t.i) ∧
  (f.pc = true → t'.pc = t.pc) ∧
  (f.dt = true → t'.dt = t.dt ∧ t'.dtTop = t.dtTop) ∧
  (f.st = true → t'.st = t.st ∧ t'.stTop = t.stTop)

/-- The same write to one V register of any two states leaves that register alike. -/
theorem State.writeV_regsAgree (s u : State) (x : RegIdx) (b : Byte) :
    (Footprint.reg x).RegsAgree (s.writeV x b) (u.writeV x b) := by
  simp [Footprint.RegsAgree, Footprint.reg]

/-- The same flagged write to any two states leaves VF and the register alike. -/
theorem State.writeFlagged_regsAgree (s u : State) (x : RegIdx) (r : AluOut) :
    (Footprint.flagged x).RegsAgree (s.writeFlagged x r) (u.writeFlagged x r) := by
  simp +contextual [Footprint.RegsAgree, Footprint.flagged]

/-- The same skip of states with one PC leaves PC alike. -/
theorem State.skipIf_regsAgree {s u : State} (c : Bool) (h : u.pc = s.pc) :
    Footprint.pcOnly.RegsAgree (s.skipIf c) (u.skipIf c) := by
  simp [Footprint.RegsAgree, Footprint.pcOnly, h]

/-- The registers an instruction writes are left alike in states that agree on what it reads: the value written is a
function of what is read. -/
theorem AgreeOnReads.regsAgree {i : Instr} {s u t t' : State} (h : AgreeOnReads i s u)
    (ht : stateAfter (exec i s) = some t) (ht' : stateAfter (exec i u) = some t') :
    (footprint i s).RegsAgree t t' := by
  obtain ⟨hV, hPc, hI, hDt, hMem⟩ := h
  cases i with
  | cls | ret | call | sys | ldIndVx => simp [Footprint.RegsAgree, footprint, Footprint.nothing]
  | jp | ldINnn => cases ht; cases ht'; simp [Footprint.RegsAgree, footprint, Footprint.pcOnly]
  | seVxKk x | sneVxKk x =>
    cases ht; cases ht'
    rw [hV x (by simp [readsV])]
    exact State.skipIf_regsAgree _ (hPc rfl)
  | seVxVy x y | sneVxVy x y =>
    cases ht; cases ht'
    rw [hV x (by simp [readsV]), hV y (by simp [readsV])]
    exact State.skipIf_regsAgree _ (hPc rfl)
  | ldVxKk => cases ht; cases ht'; exact State.writeV_regsAgree _ _ _ _
  | ldVxVy _ y =>
    cases ht; cases ht'
    rw [hV y (by simp [readsV])]
    exact State.writeV_regsAgree _ _ _ _
  | ldVxDt x =>
    cases ht; cases ht'
    rw [hDt x rfl]
    exact State.writeV_regsAgree _ _ _ _
  | addVxKk x =>
    cases ht; cases ht'
    rw [hV x (by simp [readsV])]
    exact State.writeV_regsAgree _ _ _ _
  | orVxVy x y | andVxVy x y | xorVxVy x y =>
    cases ht; cases ht'
    rw [hV x (by simp [readsV]), hV y (by simp [readsV])]
    exact State.writeV_regsAgree _ _ _ _
  | addVxVy x y | subVxVy x y | subnVxVy x y =>
    cases ht; cases ht'
    rw [hV x (by simp [readsV]), hV y (by simp [readsV])]
    exact State.writeFlagged_regsAgree _ _ _ _
  | shrVxVy x | shlVxVy x =>
    cases ht; cases ht'
    rw [hV x (by simp [readsV])]
    exact State.writeFlagged_regsAgree _ _ _ _
  | addIVx x =>
    cases ht; cases ht'
    simp [Footprint.RegsAgree, footprint, hV x (by simp [readsV]), hI rfl]
  | ldDtVx x | ldStVx x =>
    cases ht; cases ht'
    simp [Footprint.RegsAgree, footprint, hV x (by simp [readsV])]
  | ldVxInd x =>
    have hi := hI rfl
    refine ⟨fun j hj => ?_, by simp [footprint], by simp [footprint], by simp [footprint], by simp [footprint]⟩
    obtain ⟨hle, hlt⟩ : j.toNat ≤ x.toNat ∧ s.blockAddr j < s.firstBadAddr := by
      simpa [footprint, State.blockAddr] using hj
    have hlt' : u.blockAddr j < u.firstBadAddr := by
      rwa [State.blockAddr_congr hi, State.firstBadAddr_congr hi]
    rw [execLdVxInd_readV hle hlt ht, execLdVxInd_readV hle hlt' ht', State.blockAddr_congr hi]
    exact hMem x rfl j hle

/-- The bytes an instruction writes are left alike in states that agree on what it reads: LD [I],Vx alone writes any, and
puts in each the register of its index. -/
theorem AgreeOnReads.cellsAgree {i : Instr} {s u t t' : State} (h : AgreeOnReads i s u)
    (ht : stateAfter (exec i s) = some t) (ht' : stateAfter (exec i u) = some t') (hs : s.mem.wf) (hu : u.mem.wf)
    {a : Nat} (ha : (footprint i s).cell a = true) : t'.mem.get a = t.mem.get a := by
  obtain ⟨hV, -, hI, -⟩ := h
  cases i with
  | ldIndVx x =>
    have hi := hI rfl
    obtain ⟨⟨hlow, hhigh⟩, hlt⟩ : (s.i.toNat ≤ a ∧ a ≤ s.i.toNat + x.toNat) ∧ a < s.firstBadAddr := by
      simpa [footprint] using ha
    obtain ⟨j, hle, rfl⟩ := State.exists_blockAddr_eq hlow hhigh
    have hlt' : u.blockAddr j < u.firstBadAddr := by
      rwa [State.blockAddr_congr hi, State.firstBadAddr_congr hi]
    have hstored := execLdIndVx_get hu hle hlt' ht'
    rw [State.blockAddr_congr hi] at hstored
    rw [hstored, execLdIndVx_get hs hle hlt ht]
    exact hV j (by simpa [readsV] using hle)
  | _ => cases ha

/-- Settles O35: the kind of the outcome is that of `Completes`, and what is written is a function of what is read. -/
theorem execDependsOnlyOnWhatItReads : Obligations.ExecDependsOnlyOnWhatItReads := by
  refine fun i s u h => ⟨h.errorIn_eq, fun t ht => ?_⟩
  obtain ⟨t', ht'⟩ := exists_stateAfter_exec i u
  obtain ⟨hv, hi, hpc, hdt, hst⟩ := h.regsAgree ht ht'
  have hnext : exec i s = .next t ↔ exec i u = .next t' := by
    rw [exec_eq_next_iff ht, exec_eq_next_iff ht', h.completes_iff]
  exact ⟨t', ht', hnext, hv, hi, hpc, hdt, hst, fun hs hu _ => h.cellsAgree ht ht' hs hu⟩

end Sys2Proof.Machine
end

section
/-! PROOF. Which words a step must have been presented for DT, ST, I or memory to change, with no timer agent
(spec/10_state.md R23, R30 to R34, spec/20_memory.md R66, R76). -/

namespace Sys2Proof.Machine

/-- From `s` to `t` only what the decoded word `d` is named for has changed: SP, the program and the fixed parameters
never, each of DT, ST, I and memory only for its own instructions. -/
structure ChangesNamed (d : Except DecodeError Instr) (s t : State) : Prop where
  sp : t.sp = s.sp
  words : t.env.seq.words = s.env.seq.words
  entry : t.env.seq.entry = s.env.seq.entry
  base : t.env.seq.base = s.env.seq.base
  kind : t.env.seq.kind = s.env.seq.kind
  policy : t.env.policy = s.env.policy
  dt : (∀ x, d ≠ .ok (.ldDtVx x)) → t.dt = s.dt ∧ t.dtTop = s.dtTop
  st : (∀ x, d ≠ .ok (.ldStVx x)) → t.st = s.st ∧ t.stTop = s.stTop
  i : (∀ nnn, d ≠ .ok (.ldINnn nnn)) → (∀ x, d ≠ .ok (.addIVx x)) → t.i = s.i
  mem : (∀ x, d ≠ .ok (.ldIndVx x)) → t.mem = s.mem

/-- Two changes in a row for the same word are one. -/
theorem ChangesNamed.trans {d : Except DecodeError Instr} {s t u : State} (h : ChangesNamed d s t)
    (h' : ChangesNamed d t u) : ChangesNamed d s u where
  sp := h'.sp.trans h.sp
  words := h'.words.trans h.words
  entry := h'.entry.trans h.entry
  base := h'.base.trans h.base
  kind := h'.kind.trans h.kind
  policy := h'.policy.trans h.policy
  dt := fun hd => ⟨(h'.dt hd).1.trans (h.dt hd).1, (h'.dt hd).2.trans (h.dt hd).2⟩
  st := fun hd => ⟨(h'.st hd).1.trans (h.st hd).1, (h'.st hd).2.trans (h.st hd).2⟩
  i := fun hd hd' => (h'.i hd hd').trans (h.i hd hd')
  mem := fun hd => (h'.mem hd).trans (h.mem hd)

/-- The fetch's advance changes nothing an instruction is named for. -/
theorem State.advance_changesNamed (d : Except DecodeError Instr) (s : State) : ChangesNamed d s s.advance := by
  obtain ⟨-, hi, hsp, hdt, hst, hmem, hwords, hkind, hentry, hbase, -, hpolicy, -, hdtTop, hstTop⟩ := s.advance_keeps
  exact ⟨hsp, hwords, hentry, hbase, hkind, hpolicy, fun _ => ⟨hdt, hdtTop⟩, fun _ => ⟨hst, hstTop⟩, fun _ _ => hi,
    fun _ => hmem⟩

/-- Noting an error changes nothing an instruction is named for. -/
theorem State.noteError_changesNamed (d : Except DecodeError Instr) (s : State) (e : CoreError) :
    ChangesNamed d s (s.noteError e) :=
  ⟨rfl, rfl, rfl, rfl, rfl, rfl, fun _ => ⟨rfl, rfl⟩, fun _ => ⟨rfl, rfl⟩, fun _ _ => rfl, fun _ => rfl⟩

/-- No instruction writes SP or the surroundings (R32, R10). -/
theorem footprint_sp_env (i : Instr) (s : State) : (footprint i s).sp = false ∧ (footprint i s).env = false := by
  cases i <;> exact ⟨rfl, rfl⟩

/-- Only LD DT,Vx writes DT (R30). -/
theorem footprint_dt {i : Instr} (s : State) (h : ∀ x, i ≠ .ldDtVx x) : (footprint i s).dt = false := by
  cases i with
  | ldDtVx x => exact absurd rfl (h x)
  | _ => rfl

/-- Only LD ST,Vx writes ST (R31). -/
theorem footprint_st {i : Instr} (s : State) (h : ∀ x, i ≠ .ldStVx x) : (footprint i s).st = false := by
  cases i with
  | ldStVx x => exact absurd rfl (h x)
  | _ => rfl

/-- Only LD I,nnn and ADD I,Vx write I (R34). -/
theorem footprint_i {i : Instr} (s : State) (h : ∀ nnn, i ≠ .ldINnn nnn) (h' : ∀ x, i ≠ .addIVx x) :
    (footprint i s).i = false := by
  cases i with
  | ldINnn nnn => exact absurd rfl (h nnn)
  | addIVx x => exact absurd rfl (h' x)
  | _ => rfl

/-- Execute changes only what its instruction is named for: registers by its footprint, memory as data. -/
theorem exec_changesNamed {i : Instr} {s t : State} (h : stateAfter (exec i s) = some t) :
    ChangesNamed (.ok i) s t := by
  obtain ⟨-, hi, -, hsp, hdt, hst, -, henv⟩ := execWritesOnlyItsFootprint i s t h
  obtain ⟨hfsp, hfenv⟩ := footprint_sp_env i s
  have henv : t.env = s.env := henv hfenv
  refine ⟨hsp hfsp, by rw [henv], by rw [henv], by rw [henv], by rw [henv], by rw [henv],
    fun hn => hdt (footprint_dt s fun x e => hn x (congrArg _ e)),
    fun hn => hst (footprint_st s fun x e => hn x (congrArg _ e)),
    fun hn hn' => hi (footprint_i s (fun n e => hn n (congrArg _ e)) fun x e => hn' x (congrArg _ e)), fun hn => ?_⟩
  rcases exec_mem_cases h with hkeep | ⟨x, -, rfl, -⟩
  · exact hkeep
  · exact absurd rfl (hn x)

/-- With no timer agent, a step leaves the state it began with, when no word is selected, or changes only what the word
presented is named for. -/
theorem step_changesNamed {s t : State} (htimer : s.env.timer = .absent) (h : stateAfter (step s) = some t) :
    t = s ∨ ∃ w a, s.nextWord = some (w, a) ∧ ChangesNamed (decode w) s t := by
  have hleaves := step_leaves h
  rw [State.timerActs_absent htimer] at hleaves
  rcases hleaves with ⟨-, hts⟩ | ⟨w, a, hw, u, htu, hu⟩
  · exact .inl hts
  · refine .inr ⟨w, a, hw, ?_⟩
    have hsu : ChangesNamed (decode w) s u := by
      rcases hu with ⟨-, rfl⟩ | ⟨i, hd, hi⟩
      · exact s.advance_changesNamed _
      · exact (s.advance_changesNamed _).trans (hd ▸ exec_changesNamed hi)
    rcases htu with rfl | ⟨e, rfl⟩
    · exact hsu
    · exact hsu.trans (u.noteError_changesNamed _ e)

/-- Settles O53: each clause is a field of `ChangesNamed`, read backwards. -/
theorem onlyNamedInstructionsChangeState : Obligations.OnlyNamedInstructionsChangeState := by
  intro s t htimer h
  rcases step_changesNamed htimer h with rfl | ⟨w, a, hw, hc⟩
  · simp
  · refine ⟨hc.sp, hc.words, hc.entry, hc.base, hc.kind, hc.policy, fun hne => ?_, fun hne => ?_, fun hne => ?_,
      fun hne => ?_⟩
    · by_contra hnot
      obtain ⟨hdt, htop⟩ := hc.dt fun x hx => hnot ⟨w, a, x, hw, hx⟩
      exact hne.elim (· hdt) (· htop)
    · by_contra hnot
      obtain ⟨hst, htop⟩ := hc.st fun x hx => hnot ⟨w, a, x, hw, hx⟩
      exact hne.elim (· hst) (· htop)
    · by_contra hnot
      exact hne (hc.i (fun nnn hn => hnot ⟨w, a, hw, .inl ⟨nnn, hn⟩⟩) fun x hx => hnot ⟨w, a, hw, .inr ⟨x, hx⟩⟩)
    · by_contra hnot
      exact hne (hc.mem fun x hx => hnot ⟨w, a, x, hw, hx⟩)

end Sys2Proof.Machine
end

section
/-! PROOF. The memory controller and the host's memory ports: a checked read and a checked write, placing an image byte
by byte, and the invariant over every port (spec/20_memory.md R61 to R67, R80, spec/70_reset_and_hazards.md R251). -/

namespace Sys2Proof.Machine

/-! ### The controller -/

/-- A read of a valid address returns its byte (R62). -/
theorem State.memRead_of_valid {s : State} {a : Nat} (h : isValidAddress a = true) :
    s.memRead a = .ok (s.mem.get a) := if_pos h

/-- A read of any other address raises (R62). -/
theorem State.memRead_of_not_valid {s : State} {a : Nat} (h : ¬ isValidAddress a = true) :
    s.memRead a = .error (.addressRange a) := if_neg h

/-- A write to a valid address sets its cell (R63). -/
theorem State.memWrite_of_valid {s : State} {a : Nat} {b : Byte} (h : isValidAddress a = true) :
    s.memWrite a b = .ok (s.setMem (s.mem.set a b)) := if_pos h

/-- A write to any other address raises (R63). -/
theorem State.memWrite_of_not_valid {s : State} {a : Nat} {b : Byte} (h : ¬ isValidAddress a = true) :
    s.memWrite a b = .error (.addressRange a) := if_neg h

/-- Settles O37: the guard of a read is the window. -/
theorem memReadReturnsTheByteOrRaises : Obligations.MemReadReturnsTheByteOrRaises := fun _ a =>
  ⟨fun h => State.memRead_of_valid ((isValidAddress_iff a).2 h),
    fun h => State.memRead_of_not_valid ((isValidAddress_iff a).not.2 h)⟩

/-- Settles O38: the guard of a write is the window, and what it does to memory is one `Memory.set`. -/
theorem memWriteStoresOneByteOrRaises : Obligations.MemWriteStoresOneByteOrRaises := by
  refine fun s a n hwf => ⟨fun h => ?_, fun h => State.memWrite_of_not_valid ((isValidAddress_iff a).not.2 h)⟩
  refine ⟨_, State.memWrite_of_valid ((isValidAddress_iff a).2 h), ?_, State.setMem_bounds fun b hb => ?_⟩
  · rw [State.setMem_mem, Memory.get_set_same hwf.1, BitVec.toNat_ofNat]
  · exact Memory.get_set_other _ _ (beq_eq_false_iff_ne.1 hb)

/-- Settles O39: `mem_valid` is `IsValidAddress` itself. -/
theorem validAddressesAreTheWindow : Obligations.ValidAddressesAreTheWindow := fun a => ⟨isValidAddress_iff a, rfl⟩

/-! ### Placing an image -/

/-- Bytes whose addresses all lie in the window are placed in order, each at its own address, and no other cell of a
canonical memory changes (R65, R67). -/
theorem placeBytes_in_window {bs : List Byte} {a : Nat} {s : State} (hwf : s.mem.wf) (hlow : 512 ≤ a)
    (hhigh : a + bs.length ≤ 4096) :
    ∃ m : Memory, placeBytes a bs s = .next (s.setMem m) ∧ (∀ k b, bs[k]? = some b → m.get (a + k) = b) ∧
      ∀ c, c < a ∨ a + bs.length ≤ c → m.get c = s.mem.get c := by
  induction bs generalizing a s with
  | nil => exact ⟨s.mem, rfl, by simp, fun _ _ => rfl⟩
  | cons b bs ih =>
    rw [List.length_cons] at hhigh
    have hvalid : isValidAddress a = true := (isValidAddress_iff a).2 ⟨hlow, by omega⟩
    obtain ⟨m, hplace, hin, hout⟩ :=
      ih (s := s.setMem (s.mem.set a b)) (Memory.set_wf hwf a b) (Nat.le_succ_of_le hlow) (by omega)
    refine ⟨m, ?_, fun k b' hk => ?_, fun c hc => ?_⟩
    · rw [placeBytes, State.memWrite_of_valid hvalid]
      exact hplace
    · cases k with
      | zero =>
        cases hk
        exact (hout a (.inl a.lt_succ_self)).trans (Memory.get_set_same hwf.1 a b)
      | succ k =>
        rw [← hin k b' hk]
        congr 1
        omega
    · rw [List.length_cons] at hc
      exact (hout c (by omega)).trans (Memory.get_set_other _ _ (by omega))

/-- An image has two bytes for each word (R67). -/
theorem imageBytes_length (words : List Word) : (imageBytes words).length = 2 * words.length := by
  induction words with
  | nil => rfl
  | cons w ws ih =>
    simp only [imageBytes, List.length_cons, ih]
    omega

/-- Word `k` of an image is its bytes `2*k`, the high one, and `2*k + 1`, the low one (R67). -/
theorem imageBytes_getElem? {words : List Word} {k : Nat} {w : Word} (h : words[k]? = some w) :
    (imageBytes words)[2 * k]? = some (w.extractLsb' 8 8) ∧
    (imageBytes words)[2 * k + 1]? = some (w.extractLsb' 0 8) := by
  induction words generalizing k with
  | nil => cases h
  | cons _ ws ih =>
    cases k with
    | zero => cases h; exact ⟨rfl, rfl⟩
    | succ k => exact ih h

/-- A word is its high byte and its low byte. -/
theorem wordOfBytes_extractLsb' (w : Word) : wordOfBytes (w.extractLsb' 8 8) (w.extractLsb' 0 8) = w := by
  rw [wordOfBytes, BitVec.extractLsb'_append_extractLsb'_eq_extractLsb' (by rfl)]
  exact BitVec.extractLsb'_eq_self

/-- Settles O42: an image is its bytes, placed from `base` up. -/
theorem imageIsPlacedBigEndian : Obligations.ImageIsPlacedBigEndian := by
  intro s base words ⟨hwf, _⟩ hlow hhigh
  have hlen := imageBytes_length words
  obtain ⟨m, hplace, hin, hout⟩ := placeBytes_in_window (bs := imageBytes words) hwf hlow (by omega)
  refine ⟨s.setMem m, hplace, fun k w hk => ?_, State.setMem_bounds fun c hc => hout c ?_⟩
  · obtain ⟨hhi, hlo⟩ := imageBytes_getElem? hk
    rw [State.setMem_mem, hin _ _ hhi, Nat.add_assoc, hin _ _ hlo, wordOfBytes_extractLsb']
  · simp only [Bool.and_eq_false_iff, decide_eq_false_iff_not] at hc
    omega

/-! ### The invariant over the host's ports -/

/-- The invariant speaks of memory alone. -/
theorem State.Inv.of_mem_eq {s t : State} (hs : s.Inv) (h : t.mem = s.mem) : t.Inv := by
  unfold State.Inv
  rwa [h]

/-- No register of the 8-bit accessor is in memory (R38). -/
@[simp] theorem State.reg8Write_mem (s : State) (r : Reg8) (n : Nat) : (s.reg8Write r n).mem = s.mem := by
  cases r <;> rfl

/-- No register of the 16-bit accessor is in memory (R39). -/
@[simp] theorem State.reg16Write_mem (s : State) (r : Reg16) (n : Nat) : (s.reg16Write r n).mem = s.mem := by
  cases r <;> rfl

/-- A write that answers a state has passed the guard, so it keeps the invariant (R65). -/
theorem State.memWrite_keeps_inv {s t : State} {a : Nat} {b : Byte} (hs : s.Inv) (h : s.memWrite a b = .ok t) :
    t.Inv := by
  obtain ⟨hwf, hwindow⟩ := hs
  rcases s.memWrite_cases a b with ⟨hvalid, hok⟩ | ⟨-, herror⟩
  · cases hok.symm.trans h
    exact ⟨Memory.set_wf hwf a b, Memory.set_window hvalid b hwindow⟩
  · cases herror.symm.trans h

/-- Placing bytes keeps the invariant, also where it stops at an invalid address (R65, log 22). -/
theorem placeBytes_keeps_inv {bs : List Byte} {a : Nat} {s t : State} (hs : s.Inv)
    (h : stateAfter (placeBytes a bs s) = some t) : t.Inv := by
  induction bs generalizing a s with
  | nil => cases h; exact hs
  | cons b bs ih =>
    rw [placeBytes] at h
    cases hw : s.memWrite a b with
    | error e => rw [hw] at h; cases h; exact hs
    | ok s' => rw [hw] at h; exact ih (State.memWrite_keeps_inv hs hw) h

/-- Settles O52: the register ports leave memory as it is, and the memory ports write through the controller. -/
theorem hostPortsKeepTheInvariant : Obligations.HostPortsKeepTheInvariant := fun s hs =>
  ⟨fun r n => hs.of_mem_eq (s.reg8Write_mem r n), fun r n => hs.of_mem_eq (s.reg16Write_mem r n),
    fun _ _ _ => State.memWrite_keeps_inv hs, fun _ _ _ => placeBytes_keeps_inv hs⟩

end Sys2Proof.Machine
end

section
/-! PROOF. The words of the five formats: reading the nibbles of a word, taking the operand fields of a format's word
(spec/30_encoding.md R92, R94) and rebuilding the word from them. -/

namespace Sys2Proof

/-! ### Nibbles -/

theorem exists_ofNibbles (w : Word) : ∃ a b c d, w = ofNibbles a b c d := ⟨_, _, _, _, eq_ofNibbles w⟩

/-- The leading nibble of a word. -/
@[simp] theorem extractLsb'_12_ofNibbles (a b c d : BitVec 4) : (ofNibbles a b c d).extractLsb' 12 4 = a := by
  obtain ⟨ha, -, -, -⟩ := ofNibbles_inj.1 (eq_ofNibbles (ofNibbles a b c d))
  exact ha.symm

/-- The last nibble of a word. -/
@[simp] theorem extractLsb'_0_ofNibbles (a b c d : BitVec 4) : (ofNibbles a b c d).extractLsb' 0 4 = d := by
  obtain ⟨-, -, -, hd⟩ := ofNibbles_inj.1 (eq_ofNibbles (ofNibbles a b c d))
  exact hd.symm

/-- The second byte of a word. -/
@[simp] theorem extractLsb'_0_8_ofNibbles (a b c d : BitVec 4) : (ofNibbles a b c d).extractLsb' 0 8 = c ++ d := by
  apply BitVec.eq_of_getLsbD_eq
  intro i hi
  simp only [BitVec.getLsbD_extractLsb', BitVec.getLsbD_append]
  interval_cases i <;> simp

theorem formatA_append (op b c d : BitVec 4) : formatA op (b ++ c ++ d) = ofNibbles op b c d := by
  apply BitVec.eq_of_getLsbD_eq
  intro i hi
  simp only [formatA, BitVec.getLsbD_append]
  interval_cases i <;> simp

theorem formatXK_append (op x c d : BitVec 4) : formatXK op x (c ++ d) = ofNibbles op x c d := by
  apply BitVec.eq_of_getLsbD_eq
  intro i hi
  simp only [formatXK, BitVec.getLsbD_append]
  interval_cases i <;> simp

/-- Equal bytes have equal nibbles. -/
theorem append_nibbles_inj {a b c d : BitVec 4} : a ++ b = c ++ d ↔ a = c ∧ b = d := by
  refine ⟨fun h => ?_, by rintro ⟨rfl, rfl⟩; rfl⟩
  have hw : ofNibbles 0 0 a b = ofNibbles 0 0 c d := by rw [← formatXK_append, h, formatXK_append]
  exact (ofNibbles_inj.1 hw).2.2

/-! ### The operands of a format's word (R94) -/

@[simp] theorem fieldNnn_formatA (op : BitVec 4) (nnn : Addr12) : fieldNnn (formatA op nnn) = nnn := by
  rw [formatA_eq, fieldNnn_ofNibbles, ← addr_eq_nibbles]

@[simp] theorem fieldX_formatXK (op : BitVec 4) (x : RegIdx) (kk : Byte) : fieldX (formatXK op x kk) = x := by
  rw [formatXK_eq, fieldX_ofNibbles]

@[simp] theorem fieldKk_formatXK (op : BitVec 4) (x : RegIdx) (kk : Byte) : fieldKk (formatXK op x kk) = kk := by
  rw [formatXK_eq, fieldKk_ofNibbles, ← byte_eq_nibbles]

@[simp] theorem fieldX_formatXY (op : BitVec 4) (x y : RegIdx) (fn : BitVec 4) : fieldX (formatXY op x y fn) = x :=
  fieldX_ofNibbles op x y fn

@[simp] theorem fieldY_formatXY (op : BitVec 4) (x y : RegIdx) (fn : BitVec 4) : fieldY (formatXY op x y fn) = y :=
  fieldY_ofNibbles op x y fn

@[simp] theorem fieldX_formatX (op : BitVec 4) (x : RegIdx) (fn : BitVec 8) : fieldX (formatX op x fn) = x := by
  rw [formatX_eq, fieldX_ofNibbles]

/-! ### A word rebuilt from its opcode bits and its operands (R90, R92) -/

theorem formatN_of_opcode {v w : Word} (h : w &&& 0xFFFF = formatN v) : formatN v = w := by
  obtain ⟨a, b, c, d, rfl⟩ := exists_ofNibbles w
  rw [← h, ofNibbles_and_FFFF]

theorem formatA_of_opcode {op : BitVec 4} {n : Addr12} {w : Word} (h : w &&& 0xF000 = formatA op n) :
    formatA op (fieldNnn w) = w := by
  obtain ⟨a, b, c, d, rfl⟩ := exists_ofNibbles w
  rw [ofNibbles_and_F000, formatA_eq, ofNibbles_inj] at h
  obtain ⟨rfl, -, -, -⟩ := h
  rw [fieldNnn_ofNibbles, formatA_append]

theorem formatXK_of_opcode {op : BitVec 4} {x : RegIdx} {k : Byte} {w : Word} (h : w &&& 0xF000 = formatXK op x k) :
    formatXK op (fieldX w) (fieldKk w) = w := by
  obtain ⟨a, b, c, d, rfl⟩ := exists_ofNibbles w
  rw [ofNibbles_and_F000, formatXK_eq, ofNibbles_inj] at h
  obtain ⟨rfl, -, -, -⟩ := h
  rw [fieldX_ofNibbles, fieldKk_ofNibbles, formatXK_append]

theorem formatXY_of_opcode {op fn : BitVec 4} {x y : RegIdx} {w : Word} (h : w &&& 0xF00F = formatXY op x y fn) :
    formatXY op (fieldX w) (fieldY w) fn = w := by
  obtain ⟨a, b, c, d, rfl⟩ := exists_ofNibbles w
  rw [ofNibbles_and_F00F, formatXY_eq, ofNibbles_inj] at h
  obtain ⟨rfl, -, -, rfl⟩ := h
  rw [fieldX_ofNibbles, fieldY_ofNibbles, formatXY_eq]

theorem formatX_of_opcode {op : BitVec 4} {fn : BitVec 8} {x : RegIdx} {w : Word}
    (h : w &&& 0xF0FF = formatX op x fn) : formatX op (fieldX w) fn = w := by
  obtain ⟨a, b, c, d, rfl⟩ := exists_ofNibbles w
  rw [ofNibbles_and_F0FF, formatX_eq, ofNibbles_inj] at h
  obtain ⟨rfl, -, rfl, rfl⟩ := h
  rw [fieldX_ofNibbles, formatX_eq]

/-! ### Equal opcode bits, nibble by nibble -/

theorem and_F000_eq_iff {v w : Word} (hv : v &&& 0xF000 = v) :
    w &&& 0xF000 = v ↔ w.extractLsb' 12 4 = v.extractLsb' 12 4 := by
  obtain ⟨a, b, c, d, rfl⟩ := exists_ofNibbles w
  obtain ⟨a', b', c', d', rfl⟩ := exists_ofNibbles v
  rw [ofNibbles_and_F000, ofNibbles_inj] at hv
  obtain ⟨-, hzero⟩ := hv
  rw [ofNibbles_and_F000, ofNibbles_inj, extractLsb'_12_ofNibbles, extractLsb'_12_ofNibbles]
  exact ⟨And.left, fun h => ⟨h, hzero⟩⟩

theorem and_F00F_eq_iff {v w : Word} (hv : v &&& 0xF00F = v) :
    w &&& 0xF00F = v ↔ w.extractLsb' 12 4 = v.extractLsb' 12 4 ∧ w.extractLsb' 0 4 = v.extractLsb' 0 4 := by
  obtain ⟨a, b, c, d, rfl⟩ := exists_ofNibbles w
  obtain ⟨a', b', c', d', rfl⟩ := exists_ofNibbles v
  rw [ofNibbles_and_F00F, ofNibbles_inj] at hv
  obtain ⟨-, hb, hc, -⟩ := hv
  simp only [ofNibbles_and_F00F, ofNibbles_inj, extractLsb'_12_ofNibbles, extractLsb'_0_ofNibbles]
  exact ⟨fun ⟨ha, _, _, hd⟩ => ⟨ha, hd⟩, fun ⟨ha, hd⟩ => ⟨ha, hb, hc, hd⟩⟩

theorem and_F0FF_eq_iff {v w : Word} (hv : v &&& 0xF0FF = v) :
    w &&& 0xF0FF = v ↔ w.extractLsb' 12 4 = v.extractLsb' 12 4 ∧ w.extractLsb' 0 8 = v.extractLsb' 0 8 := by
  obtain ⟨a, b, c, d, rfl⟩ := exists_ofNibbles w
  obtain ⟨a', b', c', d', rfl⟩ := exists_ofNibbles v
  rw [ofNibbles_and_F0FF, ofNibbles_inj] at hv
  obtain ⟨-, hb, -, -⟩ := hv
  simp only [ofNibbles_and_F0FF, ofNibbles_inj, extractLsb'_12_ofNibbles, extractLsb'_0_8_ofNibbles,
    append_nibbles_inj]
  exact ⟨fun ⟨ha, _, hcd⟩ => ⟨ha, hcd⟩, fun ⟨ha, hcd⟩ => ⟨ha, hb, hcd⟩⟩

end Sys2Proof
end

section
/-! PROOF. Which catalogue row a word selects, in every admissible order, and the two round trips between words and
well-formed instructions (spec/30_encoding.md R90 to R103). -/

namespace Sys2Proof

/-! ### The formats of R92 -/

/-- The formats of R92. -/
inductive Format where
  | N | A | XK | XY | X
  deriving DecidableEq

/-- The format of an opcode identity (R92, R96). -/
def OpId.format : OpId → Format
  | .CLS | .RET => .N
  | .CALL | .SYS | .JP | .LD_I_NNN => .A
  | .SE_VX_KK | .SNE_VX_KK | .LD_VX_KK | .ADD_VX_KK => .XK
  | .SE_VX_VY | .SNE_VX_VY | .LD_VX_VY | .ADD_VX_VY | .OR | .AND | .XOR | .SUB | .SUBN | .SHR | .SHL => .XY
  | .LD_VX_DT | .LD_DT_VX | .LD_ST_VX | .LD_IND_VX | .LD_VX_IND | .ADD_I_VX => .X

/-- The bits of a format that are no operand bits (R92, D4). -/
def Format.opcodeMask : Format → Word
  | .N => 0xFFFF
  | .A | .XK => 0xF000
  | .XY => 0xF00F
  | .X => 0xF0FF

/-- The operand masks of a format, in operand order (R91, R92). -/
def Format.operandMasks : Format → List Word
  | .N => []
  | .A => [maskNnn]
  | .XK => [maskX, maskKk]
  | .XY => [maskX, maskY]
  | .X => [maskX]

/-- The opcode value of an identity: its word with every operand 0 (R92, R96). -/
def OpId.opcodeValue (id : OpId) : Word := encode (instrOf id 0)

/-- A catalogue row holds the masks of its identity's format and its identity's opcode value (R95, R96). -/
theorem catalogue_row : ∀ d ∈ catalogue, d.mask = d.id.format.opcodeMask ∧ d.value = d.id.opcodeValue ∧
    d.operandMasks = d.id.format.operandMasks := by decide

/-- R95's `value & mask = value`. -/
theorem catalogue_value_and_mask : ∀ d ∈ catalogue, d.value &&& d.mask = d.value := by decide

@[simp] theorem id_instrOf (id : OpId) (w : Word) : (instrOf id w).id = id := by cases id <;> rfl

/-- A word is the word of the instruction extracted from it, for every identity whose opcode value it holds. -/
theorem encode_instrOf {id : OpId} {w : Word} (h : w &&& id.format.opcodeMask = id.opcodeValue) :
    encode (instrOf id w) = w := by
  cases id with
  | CLS | RET => exact formatN_of_opcode h
  | CALL | SYS | JP | LD_I_NNN => exact formatA_of_opcode h
  | SE_VX_KK | SNE_VX_KK | LD_VX_KK | ADD_VX_KK => exact formatXK_of_opcode h
  | SE_VX_VY | SNE_VX_VY | LD_VX_VY | ADD_VX_VY | OR | AND | XOR | SUB | SUBN | SHR | SHL => exact formatXY_of_opcode h
  | LD_VX_DT | LD_DT_VX | LD_ST_VX | LD_IND_VX | LD_VX_IND | ADD_I_VX => exact formatX_of_opcode h

/-- The operands of an instruction are read back from its word (R94). -/
theorem instrOf_encode (i : Instr) : instrOf i.id (encode i) = i := by
  cases i <;> simp [Instr.id, instrOf, encode]

/-- Every instruction's word carries the opcode bits of its own row. -/
theorem encodesInItsRow : ∀ i : Instr, Laws.EncodesInItsRow.Statement i
  | .cls => Laws.EncodesInItsRow.cls
  | .ret => Laws.EncodesInItsRow.ret
  | .call nnn => Laws.EncodesInItsRow.call nnn
  | .sys nnn => Laws.EncodesInItsRow.sys nnn
  | .jp nnn => Laws.EncodesInItsRow.jp nnn
  | .seVxKk x kk => Laws.EncodesInItsRow.seVxKk x kk
  | .seVxVy x y => Laws.EncodesInItsRow.seVxVy x y
  | .sneVxKk x kk => Laws.EncodesInItsRow.sneVxKk x kk
  | .sneVxVy x y => Laws.EncodesInItsRow.sneVxVy x y
  | .ldVxKk x kk => Laws.EncodesInItsRow.ldVxKk x kk
  | .ldVxVy x y => Laws.EncodesInItsRow.ldVxVy x y
  | .ldINnn nnn => Laws.EncodesInItsRow.ldINnn nnn
  | .ldVxDt x => Laws.EncodesInItsRow.ldVxDt x
  | .ldDtVx x => Laws.EncodesInItsRow.ldDtVx x
  | .ldStVx x => Laws.EncodesInItsRow.ldStVx x
  | .ldIndVx x => Laws.EncodesInItsRow.ldIndVx x
  | .ldVxInd x => Laws.EncodesInItsRow.ldVxInd x
  | .addVxKk x kk => Laws.EncodesInItsRow.addVxKk x kk
  | .addVxVy x y => Laws.EncodesInItsRow.addVxVy x y
  | .addIVx x => Laws.EncodesInItsRow.addIVx x
  | .orVxVy x y => Laws.EncodesInItsRow.orVxVy x y
  | .andVxVy x y => Laws.EncodesInItsRow.andVxVy x y
  | .xorVxVy x y => Laws.EncodesInItsRow.xorVxVy x y
  | .subVxVy x y => Laws.EncodesInItsRow.subVxVy x y
  | .subnVxVy x y => Laws.EncodesInItsRow.subnVxVy x y
  | .shrVxVy x y => Laws.EncodesInItsRow.shrVxVy x y
  | .shlVxVy x y => Laws.EncodesInItsRow.shlVxVy x y

/-- The word of an instruction holds the opcode value of its identity. -/
theorem encode_and_opcodeMask (i : Instr) : encode i &&& i.id.format.opcodeMask = i.id.opcodeValue := by
  obtain ⟨d, hd, hid, hword⟩ := encodesInItsRow i
  obtain ⟨hmask, hvalue, -⟩ := catalogue_row d hd
  rwa [hmask, hvalue, hid] at hword

/-- Every opcode identity has a row. -/
theorem exists_row (id : OpId) : ∃ d ∈ catalogue, d.id = id := by
  obtain ⟨d, hd, hid, -⟩ := encodesInItsRow (instrOf id 0)
  exact ⟨d, hd, hid.trans (id_instrOf id 0)⟩

/-! ### Words that match two rows (R103) -/

theorem matchesWord_iff {d : Definition} (hd : d ∈ catalogue) (w : Word) :
    d.matchesWord w = true ↔ w &&& d.id.format.opcodeMask = d.id.opcodeValue := by
  obtain ⟨hmask, hvalue, -⟩ := catalogue_row d hd
  rw [Definition.matchesWord, beq_iff_eq, hmask, hvalue]

/-- Two rows whose values agree on the bits both compare: SYS is one of them, and the other compares every bit. -/
theorem catalogue_overlap : ∀ d ∈ catalogue, ∀ e ∈ catalogue, d ≠ e → d.value &&& e.mask = e.value &&& d.mask →
    (d.mask ||| e.mask = 0xFFFF ∧ (d.value ||| e.value = 0x00E0 ∨ d.value ||| e.value = 0x00EE)) ∧
    (d.id = .SYS ∨ e.id = .SYS) := by decide

/-- Settles O8: the values of two rows that match one word agree on the bits both compare. -/
theorem onlyClsAndRetWordsMatchTwoDefinitions : Obligations.OnlyClsAndRetWordsMatchTwoDefinitions := by
  intro w d e hd he hne hdw hew
  rw [Definition.matchesWord, beq_iff_eq] at hdw hew
  have hagree : d.value &&& e.mask = e.value &&& d.mask := by
    rw [← hdw, ← hew, BitVec.and_assoc, BitVec.and_comm d.mask, ← BitVec.and_assoc]
  obtain ⟨⟨hall, hvalue⟩, hsys⟩ := catalogue_overlap d hd e he hne hagree
  have hw : w = d.value ||| e.value := by
    rw [← hdw, ← hew, ← BitVec.and_or_distrib_left, hall]
    exact BitVec.and_allOnes.symm
  exact ⟨hw ▸ hvalue, hsys⟩

/-! ### The row a word selects (R97, R103) -/

/-- The word holds the identity's opcode value, and it is not SYS's for the words of CLS and RET (R103). -/
def OpId.Selects (id : OpId) (w : Word) : Prop :=
  w &&& id.format.opcodeMask = id.opcodeValue ∧ (id = .SYS → w ≠ 0x00E0 ∧ w ≠ 0x00EE)

/-- No word selects two rows. -/
theorem row_unique_of_selects {d e : Definition} {w : Word} (hd : d ∈ catalogue) (he : e ∈ catalogue)
    (hdw : d.id.Selects w) (hew : e.id.Selects w) : d = e := by
  by_contra hne
  obtain ⟨hword, hsys⟩ := onlyClsAndRetWordsMatchTwoDefinitions w d e hd he hne
    ((matchesWord_iff hd w).2 hdw.1) ((matchesWord_iff he w).2 hew.1)
  obtain ⟨hE0, hEE⟩ : w ≠ 0x00E0 ∧ w ≠ 0x00EE := hsys.elim hdw.2 hew.2
  exact hword.elim hE0 hEE

/-- In an order of the catalogue that does not answer SYS for the words of CLS and RET, the first match is the row the
word selects. -/
theorem find?_matchesWord_eq_some_iff {l : List Definition} (hl : l.Perm catalogue)
    (hsys : ∀ w d, (w = 0x00E0 ∨ w = 0x00EE) → l.find? (·.matchesWord w) = some d → d.id ≠ .SYS)
    (w : Word) (d : Definition) : l.find? (·.matchesWord w) = some d ↔ d ∈ catalogue ∧ d.id.Selects w := by
  have found : ∀ {e}, l.find? (·.matchesWord w) = some e → e ∈ catalogue ∧ e.id.Selects w := by
    intro e he
    have hmem : e ∈ catalogue := hl.mem_iff.1 (List.mem_of_find?_eq_some he)
    have hmatch : e.matchesWord w = true := List.find?_some (p := fun d : Definition => d.matchesWord w) he
    exact ⟨hmem, (matchesWord_iff hmem w).1 hmatch, fun hid =>
      ⟨fun hw => hsys w e (.inl hw) he hid, fun hw => hsys w e (.inr hw) he hid⟩⟩
  refine ⟨found, fun ⟨hd, hdw⟩ => ?_⟩
  cases he : l.find? (·.matchesWord w) with
  | none => exact absurd ((matchesWord_iff hd w).2 hdw.1) (List.find?_eq_none.1 he d (hl.mem_iff.2 hd))
  | some e =>
    obtain ⟨hmem, hew⟩ := found he
    rw [row_unique_of_selects hmem hd hew hdw]

/-- Decode answers the row the word selects (R97). -/
theorem decodeDef_eq_some_iff {w : Word} {d : Definition} : decodeDef w = some d ↔ d ∈ catalogue ∧ d.id.Selects w := by
  refine find?_matchesWord_eq_some_iff (List.Perm.refl _) (fun w d hw hd => ?_) w d
  rcases hw with rfl | rfl <;> cases hd <;> decide

/-- Settles O7: CLS and RET, standing before SYS, are found first for their words, so both orders answer the row the word
selects. -/
theorem everyAdmissibleOrderDecodesAlike : Obligations.EveryAdmissibleOrderDecodesAlike := by
  intro l hl horder w
  refine Option.ext fun d => ?_
  rw [decodeDef_eq_some_iff]
  refine find?_matchesWord_eq_some_iff hl (fun w d hw hd hid => ?_) w d
  obtain ⟨-, before, after, hsplit, hbefore⟩ := List.find?_eq_some_iff_append.1 hd
  obtain ⟨⟨c, hc, hcid⟩, ⟨r, hr, hrid⟩⟩ := horder before d after hsplit hid
  obtain ⟨b, hb, hmatch⟩ : ∃ b ∈ before, b.matchesWord w = true := by
    have mem_catalogue : ∀ {e}, e ∈ before → e ∈ catalogue := fun he =>
      hl.mem_iff.1 (hsplit ▸ List.mem_append_left _ he)
    rcases hw with rfl | rfl
    · exact ⟨c, hc, (matchesWord_iff (mem_catalogue hc) _).2 (by rw [hcid]; rfl)⟩
    · exact ⟨r, hr, (matchesWord_iff (mem_catalogue hr) _).2 (by rw [hrid]; rfl)⟩
  exact absurd hmatch (by simpa using hbefore b hb)

/-- Settles O5: a row's own value selects the row; SYS's value is neither 0x00E0 nor 0x00EE. -/
theorem everyDefinitionDecodesFromItsOwnValue : Obligations.EveryDefinitionDecodesFromItsOwnValue := by
  intro d hd
  have hself := catalogue_value_and_mask d hd
  refine ⟨decodeDef_eq_some_iff.2 ⟨hd, (matchesWord_iff hd _).1 (beq_iff_eq.2 hself), fun hid => ?_⟩, hself⟩
  obtain ⟨-, hvalue, -⟩ := catalogue_row d hd
  rw [hvalue, hid]
  decide

/-! ### Decode (R97, R98) -/

theorem decode_eq_ok_iff_row {w : Word} {i : Instr} :
    decode w = .ok i ↔ ∃ d, decodeDef w = some d ∧ i = instrOf d.id w := by
  unfold decode
  cases decodeDef w with
  | none => simp
  | some d => simp [eq_comm]

theorem decode_eq_error_iff {w : Word} {e : DecodeError} : decode w = .error e ↔ e = ⟨w⟩ ∧ decodeDef w = none := by
  unfold decode
  cases decodeDef w with
  | none => simp [eq_comm]
  | some d => simp

/-- Settles O4: `find?` answers the first match, and `decode` is its answer with the fields extracted. -/
theorem decodeReturnsTheFirstMatchOrTheError : Obligations.DecodeReturnsTheFirstMatchOrTheError := by
  refine fun w => ⟨fun d => ?_, ?_, fun e he => (decode_eq_error_iff.1 he).1, fun i hi => ?_⟩
  · rw [decodeDef, List.find?_eq_some_iff_append]
    simp only [Definition.matchesWord, beq_iff_eq, Bool.not_eq_true', beq_eq_false_iff_ne]
    exact ⟨fun ⟨hd, before, after, hsplit, hbefore⟩ => ⟨before, after, hsplit, hd, hbefore⟩,
      fun ⟨before, after, hsplit, hd, hbefore⟩ => ⟨hd, before, after, hsplit, hbefore⟩⟩
  · simp [decode_eq_error_iff, decodeDef, Definition.matchesWord]
  · obtain ⟨d, hd, rfl⟩ := decode_eq_ok_iff_row.1 hi
    exact ⟨d, hd, id_instrOf _ _⟩

/-! ### Both round trips -/

/-- Well-formed is: not SYS under a word of CLS or RET (R103, R143). -/
theorem wellFormed_iff (i : Instr) : i.wellFormed = true ↔ (i.id = .SYS → encode i ≠ 0x00E0 ∧ encode i ≠ 0x00EE) := by
  cases i with
  | sys nnn =>
    have formatA_inj : ∀ m, formatA 0 nnn = formatA 0 m ↔ nnn = m := fun m =>
      ⟨fun h => by simpa using congrArg fieldNnn h, congrArg _⟩
    have hE0 : encode (.sys nnn) = 0x00E0 ↔ nnn = 0x0E0 := formatA_inj 0x0E0
    have hEE : encode (.sys nnn) = 0x00EE ↔ nnn = 0x0EE := formatA_inj 0x0EE
    rw [Instr.wellFormed, Bool.and_eq_true, bne_iff_ne, bne_iff_ne, ne_eq, ne_eq, ← hE0, ← hEE]
    exact ⟨fun h _ => h, fun h => h rfl⟩
  | _ => exact iff_of_true rfl nofun

/-- An instruction is well-formed exactly when its word selects its identity. -/
theorem wellFormed_iff_selects (i : Instr) : i.wellFormed = true ↔ i.id.Selects (encode i) := by
  rw [wellFormed_iff, OpId.Selects]
  exact (and_iff_right (encode_and_opcodeMask i)).symm

/-- Words and well-formed instructions decode and encode into one another. -/
theorem decode_eq_ok_iff {w : Word} {i : Instr} : decode w = .ok i ↔ i.wellFormed = true ∧ encode i = w := by
  rw [decode_eq_ok_iff_row, wellFormed_iff_selects]
  constructor
  · rintro ⟨d, hd, rfl⟩
    obtain ⟨-, hsel⟩ := decodeDef_eq_some_iff.1 hd
    have hword := encode_instrOf hsel.1
    exact ⟨by rwa [id_instrOf, hword], hword⟩
  · rintro ⟨hsel, rfl⟩
    obtain ⟨d, hd, hid⟩ := exists_row i.id
    exact ⟨d, decodeDef_eq_some_iff.2 ⟨hd, hid ▸ hsel⟩, by rw [hid, instrOf_encode]⟩

/-- Settles O1: one direction of `decode_eq_ok_iff`. -/
theorem decodeOfEncodeGivesTheInstruction : Obligations.DecodeOfEncodeGivesTheInstruction := fun _ hi =>
  decode_eq_ok_iff.2 ⟨hi, rfl⟩

/-- Settles O2: the other direction of `decode_eq_ok_iff`. -/
theorem encodeOfDecodedWordGivesTheWord : Obligations.EncodeOfDecodedWordGivesTheWord := fun _ _ =>
  decode_eq_ok_iff.1

/-- Settles O3: each word is written out, so the decoder runs on it. -/
theorem decoderReadsWrittenOutWords : Obligations.DecoderReadsWrittenOutWords := by
  refine ⟨?_, ?_, ?_, ?_⟩ <;> decide

end Sys2Proof
end

section
/-! PROOF. Operands as masked and shifted fields (spec/30_encoding.md R91, R94, R95). -/

namespace Sys2Proof

/-- The word under a field mask, shifted down by the field's distance from bit 0 (R91, R94). -/
def maskedField (w m : Word) : Nat := ((w &&& m) >>> (if m = 0x0F00 then 8 else if m = 0x00F0 then 4 else 0)).toNat

/-- Narrowing a masked and shifted word to a width that holds the shifted mask loses nothing. -/
theorem toNat_setWidth_masked {w m : Word} {s k : Nat} (h : (m >>> s).toNat < 2 ^ k) :
    (((w &&& m) >>> s).setWidth k).toNat = ((w &&& m) >>> s).toNat := by
  have hle : ((w &&& m) >>> s).toNat ≤ (m >>> s).toNat := by
    simp only [BitVec.toNat_ushiftRight, BitVec.toNat_and, Nat.shiftRight_eq_div_pow]
    exact Nat.div_le_div_right Nat.and_le_right
  rw [BitVec.toNat_setWidth, Nat.mod_eq_of_lt (hle.trans_lt h)]

theorem toNat_fieldX (w : Word) : (fieldX w).toNat = maskedField w maskX := toNat_setWidth_masked (by decide)
theorem toNat_fieldY (w : Word) : (fieldY w).toNat = maskedField w maskY := toNat_setWidth_masked (by decide)
theorem toNat_fieldKk (w : Word) : (fieldKk w).toNat = maskedField w maskKk :=
  toNat_setWidth_masked (s := 0) (by decide)
theorem toNat_fieldNnn (w : Word) : (fieldNnn w).toNat = maskedField w maskNnn :=
  toNat_setWidth_masked (s := 0) (by decide)

/-- The operands extracted for an identity are those of its format's masks (R92, R94). -/
theorem operands_instrOf (id : OpId) (w : Word) :
    (instrOf id w).operands = id.format.operandMasks.map (maskedField w) := by
  cases id <;>
    simp [instrOf, Instr.operands, OpId.format, Format.operandMasks, toNat_fieldX, toNat_fieldY, toNat_fieldKk,
      toNat_fieldNnn]

/-- Settles O10: the row's operand masks are its format's. -/
theorem operandsAreTheMaskedShiftedFields : Obligations.OperandsAreTheMaskedShiftedFields := by
  intro w d i hd hi
  obtain ⟨e, he, rfl⟩ := decode_eq_ok_iff_row.1 hi
  cases hd.symm.trans he
  obtain ⟨-, -, hmasks⟩ := catalogue_row d (decodeDef_eq_some_iff.1 hd).1
  rw [hmasks]
  exact operands_instrOf d.id w

end Sys2Proof
end

section
/-! PROOF. The dispatch on nibbles answers the identity whose row the word selects, and none for the words of R101's
table (spec/30_encoding.md R101, R112). -/

namespace Sys2Proof

/-! ### R112's dispatch -/

/-- R112's branch for leading nibble 8 answers identities of format XY with that leading nibble and the given last one. -/
theorem dispatch8_row : ∀ fn, ∀ id ∈ dispatch8 fn, id.format = .XY ∧ id.opcodeValue.extractLsb' 12 4 = 0x8 ∧
    id.opcodeValue.extractLsb' 0 4 = fn := by decide

/-- R112's branch for leading nibble F answers identities of format X with that leading nibble and the given second byte. -/
theorem dispatchF_row : ∀ lo, ∀ id ∈ dispatchF lo, id.format = .X ∧ id.opcodeValue.extractLsb' 12 4 = 0xF ∧
    id.opcodeValue.extractLsb' 0 8 = lo := by decide

theorem opcodeValue_and_opcodeMask (id : OpId) : id.opcodeValue &&& id.format.opcodeMask = id.opcodeValue := by
  cases id <;> rfl

/-- What the dispatch answers, the word selects: one case for each branch of R112. -/
theorem selects_of_dispatchWord {w : Word} {id : OpId} (h : dispatchWord w = some id) : id.Selects w := by
  unfold dispatchWord at h
  obtain ⟨rfl, ⟨⟩⟩ | ⟨hE0, h⟩ := ite_eq_iff.1 h
  · exact ⟨rfl, nofun⟩
  obtain ⟨rfl, ⟨⟩⟩ | ⟨hEE, h⟩ := ite_eq_iff.1 h
  · exact ⟨rfl, nofun⟩
  refine ⟨?_, fun _ => ⟨hE0, hEE⟩⟩
  -- leading nibbles 0 to 4
  iterate 5
    obtain ⟨hop, ⟨⟩⟩ | ⟨-, h⟩ := ite_eq_iff.1 h
    · exact (and_F000_eq_iff rfl).2 hop
  -- 5
  obtain ⟨hop, h⟩ | ⟨-, h⟩ := ite_eq_iff.1 h
  · obtain ⟨hfn, ⟨⟩⟩ | ⟨-, ⟨⟩⟩ := ite_eq_iff.1 h
    exact (and_F00F_eq_iff rfl).2 ⟨hop, hfn⟩
  -- 6 and 7
  iterate 2
    obtain ⟨hop, ⟨⟩⟩ | ⟨-, h⟩ := ite_eq_iff.1 h
    · exact (and_F000_eq_iff rfl).2 hop
  -- 8
  obtain ⟨hop, h⟩ | ⟨-, h⟩ := ite_eq_iff.1 h
  · have hvalue := opcodeValue_and_opcodeMask id
    obtain ⟨hformat, hop', hfn⟩ := dispatch8_row _ id h
    rw [hformat] at hvalue ⊢
    exact (and_F00F_eq_iff hvalue).2 ⟨hop.trans hop'.symm, hfn.symm⟩
  -- 9
  obtain ⟨hop, h⟩ | ⟨-, h⟩ := ite_eq_iff.1 h
  · obtain ⟨hfn, ⟨⟩⟩ | ⟨-, ⟨⟩⟩ := ite_eq_iff.1 h
    exact (and_F00F_eq_iff rfl).2 ⟨hop, hfn⟩
  -- A
  obtain ⟨hop, ⟨⟩⟩ | ⟨-, h⟩ := ite_eq_iff.1 h
  · exact (and_F000_eq_iff rfl).2 hop
  -- F
  obtain ⟨hop, h⟩ | ⟨-, ⟨⟩⟩ := ite_eq_iff.1 h
  have hvalue := opcodeValue_and_opcodeMask id
  obtain ⟨hformat, hop', hlo⟩ := dispatchF_row _ id h
  rw [hformat] at hvalue ⊢
  exact (and_F0FF_eq_iff hvalue).2 ⟨hop.trans hop'.symm, hlo.symm⟩

/-- The words of CLS and RET have leading nibble 0. -/
theorem ne_cls_ret_of_leading_nibble {w : Word} (h : w.extractLsb' 12 4 ≠ 0) : w ≠ 0x00E0 ∧ w ≠ 0x00EE := by
  constructor <;> rintro rfl <;> exact h rfl

/-- What the word selects, the dispatch answers: it reads no more of the word than the opcode bits of the format. -/
theorem dispatchWord_of_selects {w : Word} {id : OpId} (h : id.Selects w) : dispatchWord w = some id := by
  obtain ⟨hword, hsys⟩ := h
  cases id with
  | CLS | RET => cases formatN_of_opcode hword; rfl
  | SYS =>
    obtain ⟨hE0, hEE⟩ := hsys rfl
    have hop := (and_F000_eq_iff rfl).1 hword
    simp only [dispatchWord, if_neg hE0, if_neg hEE, hop]; rfl
  | CALL | JP | LD_I_NNN | SE_VX_KK | SNE_VX_KK | LD_VX_KK | ADD_VX_KK =>
    have hop := (and_F000_eq_iff rfl).1 hword
    obtain ⟨hE0, hEE⟩ := ne_cls_ret_of_leading_nibble (w := w) (by rw [hop]; decide)
    simp only [dispatchWord, if_neg hE0, if_neg hEE, hop]; rfl
  | SE_VX_VY | SNE_VX_VY | LD_VX_VY | ADD_VX_VY | OR | AND | XOR | SUB | SUBN | SHR | SHL =>
    obtain ⟨hop, hfn⟩ := (and_F00F_eq_iff rfl).1 hword
    obtain ⟨hE0, hEE⟩ := ne_cls_ret_of_leading_nibble (w := w) (by rw [hop]; decide)
    simp only [dispatchWord, if_neg hE0, if_neg hEE, hop, hfn]; rfl
  | LD_VX_DT | LD_DT_VX | LD_ST_VX | LD_IND_VX | LD_VX_IND | ADD_I_VX =>
    obtain ⟨hop, hlo⟩ := (and_F0FF_eq_iff rfl).1 hword
    obtain ⟨hE0, hEE⟩ := ne_cls_ret_of_leading_nibble (w := w) (by rw [hop]; decide)
    simp only [dispatchWord, if_neg hE0, if_neg hEE, hop, hlo]; rfl

/-- The scan of the catalogue answers the identity the word selects. -/
theorem decodeDef_map_id_eq_some_iff {w : Word} {id : OpId} : (decodeDef w).map (·.id) = some id ↔ id.Selects w := by
  simp only [Option.map_eq_some_iff, decodeDef_eq_some_iff]
  constructor
  · rintro ⟨d, ⟨-, hsel⟩, rfl⟩
    exact hsel
  · intro hsel
    obtain ⟨d, hd, rfl⟩ := exists_row id
    exact ⟨d, ⟨hd, hsel⟩, rfl⟩

/-- Settles O6: both answer the identity the word selects. -/
theorem nibbleDispatchEqualsCatalogueScan : Obligations.NibbleDispatchEqualsCatalogueScan := fun _ =>
  Option.ext fun _ => decodeDef_map_id_eq_some_iff.trans ⟨dispatchWord_of_selects, selects_of_dispatchWord⟩

/-! ### R101's table -/

theorem dispatch8_eq_none_iff :
    ∀ fn, dispatch8 fn = none ↔ fn ∈ [0x8#4, 0x9#4, 0xA#4, 0xB#4, 0xC#4, 0xD#4, 0xF#4] := by decide

theorem dispatchF_eq_none_iff :
    ∀ lo, dispatchF lo = none ↔ lo ∉ [0x07#8, 0x15#8, 0x18#8, 0x1E#8, 0x55#8, 0x65#8] := by decide

/-- A word decodes to nothing exactly when the dispatch answers nothing. -/
theorem decode_eq_error_iff_dispatchWord {w : Word} : decode w = .error ⟨w⟩ ↔ dispatchWord w = none := by
  rw [decode_eq_error_iff, ← nibbleDispatchEqualsCatalogueScan w, Option.map_eq_none_iff]
  exact and_iff_right rfl

/-- Settles O9: the dispatch for each of the sixteen leading nibbles, the words of CLS and RET apart. -/
theorem undecodableWordsByLeadingNibble : Obligations.UndecodableWordsByLeadingNibble := by
  intro w
  rw [decode_eq_error_iff_dispatchWord]
  by_cases hE0 : w = 0x00E0
  · rw [hE0]; decide
  by_cases hEE : w = 0x00EE
  · rw [hEE]; decide
  simp only [dispatchWord, if_neg hE0, if_neg hEE, ← dispatch8_eq_none_iff, ← dispatchF_eq_none_iff]
  generalize w.extractLsb' 12 4 = op
  obtain ⟨⟨n, hn⟩⟩ := op
  interval_cases n <;> simp

end Sys2Proof
end

section
/-! PROOF. The text: hexadecimal numerals, the items of the disassembler and Dump (spec/30_encoding.md R100, R105
to R110). -/

namespace Sys2Proof.Machine

/-! ### Hexadecimal numerals (R106) -/

/-- The number that digits stand for, most significant first. -/
def hexValue (ds : List Char) : Nat := ds.foldl (fun v c => 16 * v + "0123456789abcdef".toList.idxOf c) 0

/-- `ds` is a lower-case hexadecimal numeral of `n` without leading zeros. -/
structure HexNumeral (ds : List Char) (n : Nat) : Prop where
  digits : ∀ c ∈ ds, c ∈ "0123456789abcdef".toList
  value : hexValue ds = n
  leading : ds.head? = some '0' → n = 0
  nonempty : ds ≠ []

/-- The sixteen digits. -/
theorem digitChar_hex : ∀ k < 16, k.digitChar ∈ "0123456789abcdef".toList ∧
    "0123456789abcdef".toList.idxOf k.digitChar = k ∧ (k.digitChar = '0' → k = 0) := by decide

theorem HexNumeral.digit {k : Nat} (hk : k < 16) : HexNumeral [k.digitChar] k := by
  obtain ⟨hmem, hvalue, hzero⟩ := digitChar_hex k hk
  exact ⟨fun _ hc => List.mem_singleton.1 hc ▸ hmem, by simpa [hexValue] using hvalue,
    fun h => hzero (Option.some.inj h), List.cons_ne_nil _ _⟩

/-- A digit after the numeral of a positive number. -/
theorem HexNumeral.snoc {ds : List Char} {m k : Nat} (h : HexNumeral ds m) (hm : 0 < m) (hk : k < 16) :
    HexNumeral (ds ++ [k.digitChar]) (16 * m + k) := by
  obtain ⟨hmem, hvalue, -⟩ := digitChar_hex k hk
  refine ⟨fun c hc => ?_, ?_, fun hhead => ?_, by simp⟩
  · rcases List.mem_append.1 hc with hc | hc
    · exact h.digits c hc
    · cases List.mem_singleton.1 hc; exact hmem
  · rw [hexValue, List.foldl_concat, hvalue, ← h.value]; rfl
  · rw [List.head?_append_of_ne_nil _ h.nonempty] at hhead
    exact absurd (h.leading hhead) hm.ne'

/-- The digits of a number in base 16, by its last digit. -/
theorem hexNumeral_toDigits (n : Nat) : HexNumeral (Nat.toDigits 16 n) n := by
  induction n using Nat.base_induction 16 (by decide) with
  | single k hk => exact Nat.toDigits_of_lt_base hk ▸ HexNumeral.digit hk
  | digit m k hk hm ih =>
    rw [← Nat.toDigits_append_toDigits (by decide) hm hk, Nat.toDigits_of_lt_base hk]
    exact ih.snoc hm hk

/-- Settles O55: the digits are those of base 16. -/
theorem hexIsLowercaseWithoutLeadingZeros : Obligations.HexIsLowercaseWithoutLeadingZeros := fun n =>
  have h := hexNumeral_toDigits n
  ⟨Nat.toDigits 16 n, rfl, h.digits, h.value, h.leading, h.nonempty, by rintro rfl; exact Nat.toDigits_zero 16⟩

/-! ### The disassembler (R109, R110) -/

/-- One item for each word. -/
theorem disassemble_length (words : List Word) (base : Nat) : (disassemble words base).length = words.length := by
  induction words generalizing base with
  | nil => rfl
  | cons w ws ih => simp [disassemble, ih]

/-- The items are in input order, two addresses apart. -/
theorem disassemble_getElem? {words : List Word} {base k : Nat} {w : Word} (h : words[k]? = some w) :
    (disassemble words base)[k]? = some (make w (base + 2 * k)) := by
  induction words generalizing base k with
  | nil => cases h
  | cons v ws ih =>
    cases k with
    | zero => cases h; rfl
    | succ k =>
      rw [disassemble, List.getElem?_cons_succ, ih h]
      congr 2
      omega

/-- Settles O56: length and items of `disassemble`. -/
theorem disassembleGivesOneItemPerWord : Obligations.DisassembleGivesOneItemPerWord := fun words base =>
  ⟨disassemble_length words base, fun _ _ => disassemble_getElem?⟩

/-- The Dumps of instructions, one line each. -/
def dumpLines (inss : List Instruction) : String := inss.foldr (fun ins rest => dump ins ++ "\n" ++ rest) ""

/-- A word that decodes makes an Instruction with its address tag (R100). -/
theorem make_of_decode {w : Word} {i : Instr} (h : decode w = .ok i) (a : Nat) : make w a = .ok ⟨i, a⟩ := by
  rw [make, h]

/-- Words that all decode disassemble to Instructions, and their text is the lines of those. -/
theorem disassembleToString_of_decodes {words : List Word} (h : ∀ w ∈ words, ∃ i, decode w = .ok i) (base : Nat) :
    ∃ inss : List Instruction, disassemble words base = inss.map .ok ∧
      disassembleToString words base = .ok (dumpLines inss) := by
  induction words generalizing base with
  | nil => exact ⟨[], rfl, rfl⟩
  | cons w ws ih =>
    obtain ⟨i, hi⟩ := h w List.mem_cons_self
    obtain ⟨inss, hitems, htext⟩ := ih (fun v hv => h v (List.mem_cons_of_mem w hv)) (base + 2)
    have hmake := make_of_decode hi base
    refine ⟨⟨i, base⟩ :: inss, ?_, ?_⟩
    · rw [disassemble, hmake, hitems]; rfl
    · rw [disassembleToString, hmake, htext]; rfl

/-- Settles O57: the text by induction, and the example by running it. -/
theorem disassembleToStringJoinsTheDumps : Obligations.DisassembleToStringJoinsTheDumps :=
  ⟨fun _ base h => disassembleToString_of_decodes h base, by decide⟩

/-! ### Dump (R105, R107, R108) -/

theorem dump_no_operand {i : Instr} (h : operandTexts i = []) (a : Nat) :
    dump ⟨i, a⟩ = hex a ++ (" " ++ mnemonicOf i.id) := by
  simp [dump, h, spaced, String.append_assoc]

theorem dump_one_operand {i : Instr} {t : String} (h : operandTexts i = [t]) (a : Nat) :
    dump ⟨i, a⟩ = hex a ++ (" " ++ mnemonicOf i.id ++ " ") ++ t := by
  simp [dump, h, spaced, String.append_assoc]

theorem dump_two_operands {i : Instr} {t u : String} (h : operandTexts i = [t, u]) (a : Nat) :
    dump ⟨i, a⟩ = hex a ++ (" " ++ mnemonicOf i.id ++ " ") ++ t ++ " " ++ u := by
  simp [dump, h, spaced, String.append_assoc]

/-- Dump with two operands, the first a fixed text such as `[I]`, grouped with the mnemonic and both spaces. -/
theorem dump_fixed_first {i : Instr} {t u p : String} (m : String) (h : operandTexts i = [t, u]) (hm : mnemonicOf i.id = m)
    (hp : " " ++ m ++ " " ++ t ++ " " = p) (a : Nat) : dump ⟨i, a⟩ = hex a ++ p ++ u := by
  simp [dump_two_operands h, ← hp, hm, String.append_assoc]

/-- Dump with two operands, the second a fixed text such as `[I]`, grouped with its space. -/
theorem dump_fixed_second {i : Instr} {t u p : String} (h : operandTexts i = [t, u]) (hp : " " ++ u = p) (a : Nat) :
    dump ⟨i, a⟩ = hex a ++ (" " ++ mnemonicOf i.id ++ " ") ++ t ++ p := by
  simp [dump_two_operands h, ← hp, String.append_assoc]

/-- Settles O58: each row by the number of its operands and which of them is a fixed text. -/
theorem dumpTextFollowsTheTable : Obligations.DumpTextFollowsTheTable := by
  refine ⟨by decide, fun a x y kk nnn => ⟨?control, ?loads, ?arithmetic⟩⟩
  case control =>
    exact ⟨dump_no_operand rfl a, dump_no_operand rfl a, dump_one_operand rfl a, dump_one_operand rfl a,
      dump_one_operand rfl a, dump_two_operands rfl a, dump_two_operands rfl a, dump_two_operands rfl a,
      dump_two_operands rfl a⟩
  case loads =>
    exact ⟨dump_two_operands rfl a, dump_two_operands rfl a, dump_fixed_first "LD" rfl rfl (by decide) a,
      dump_fixed_second rfl (by decide) a, dump_fixed_first "LD" rfl rfl (by decide) a,
      dump_fixed_first "LD" rfl rfl (by decide) a, dump_fixed_first "LD" rfl rfl (by decide) a,
      dump_fixed_second rfl (by decide) a⟩
  case arithmetic =>
    exact ⟨dump_two_operands rfl a, dump_two_operands rfl a, dump_fixed_first "ADD" rfl rfl (by decide) a,
      dump_two_operands rfl a, dump_two_operands rfl a, dump_two_operands rfl a, dump_two_operands rfl a,
      dump_two_operands rfl a, dump_two_operands rfl a, dump_two_operands rfl a⟩

end Sys2Proof.Machine
end

section
/-! PROOF. The step that presents a word that does not decode (spec/60_exceptions.md R211, R216, R217). -/

namespace Sys2Proof.Machine

/-- When the word offered after the timer agent's turn does not decode, the step raises for it after the advance, under
the host's policy (R211). -/
theorem step_of_decode_error {s : State} {w : Word} {a : Nat} {e : DecodeError}
    (hw : s.timerActs.nextWord = some (w, a)) (hd : decode w = .error e) :
    step s = settle s.env.policy (raise (.decodeError w) s.timerActs.advance) := by
  obtain ⟨-, -, -, -, -, -, hpolicy, -, -, -⟩ := s.timerActs_keeps
  obtain ⟨rfl, -⟩ := decode_eq_error_iff.1 hd
  simp only [step, runStep, hw, present_error hd, hpolicy]

/-- Settles O46: under SEQ-W the advance is the step's only change, and the policy ends the run. -/
theorem undecodableWordRaisesAtTheStep : Obligations.UndecodableWordRaisesAtTheStep := by
  intro s w e htimer hkind hpolicy hw hd
  have hquiet := State.timerActs_absent htimer
  rw [← State.slot_wordSlot hkind] at hw
  have hnext : s.timerActs.nextWord = some (w, s.env.seq.base + 2 * s.slot) := by
    rw [hquiet]
    exact State.nextWord_some hw
  rw [step_of_decode_error hnext hd, hquiet, State.advance_wordSlot hkind]
  rcases settle_raise s.env.policy (.decodeError w) (s.setPc (s.pc + 1)) with ⟨-, hend⟩ | ⟨hcarry, -⟩
  · exact hend
  · cases hpolicy.symm.trans hcarry

end Sys2Proof.Machine
end

section
/-! PROOF. Control flow: CLS, the three unimplemented opcodes, the jump and the four skips (spec/40_control_flow.md R140
to R148). -/

namespace Sys2Proof.Machine

/-- Settles O11: every footprint bounds a state that is left as it was. -/
theorem clsChangesNothing : Obligations.ClsChangesNothing :=
  ⟨by decide, fun s => ⟨s, rfl, Footprint.Bounds.refl _ s, rfl⟩⟩

/-- Settles O12: each of the three arms raises in the state it is given. -/
theorem retCallSysRaiseUnimplemented : Obligations.RetCallSysRaiseUnimplemented := fun _ _ => ⟨rfl, rfl, rfl⟩

/-! ### The jump -/

/-- Zero extension keeps the operand's number (R7, R94). -/
@[simp] theorem zextAddr_toNat (nnn : Addr12) : (zextAddr nnn).toNat = nnn.toNat :=
  BitVec.toNat_setWidth_of_le (by decide)

/-- Settles O13: the jump is one write of PC. -/
theorem jpSetsPcToTheOperand : Obligations.JpSetsPcToTheOperand := fun s nnn =>
  ⟨s.setPc (zextAddr nnn), rfl, zextAddr_toNat nnn, State.setPc_bounds s _⟩

/-! ### The skips -/

/-- A skip adds 1 to PC when it is taken and 0 otherwise, modulo 65536 (R28, D8). -/
theorem State.skipIf_pc_toNat (s : State) (c : Bool) :
    (s.skipIf c).pc.toNat = (s.pc.toNat + if c then 1 else 0) % 65536 := by
  cases c with
  | true => exact BitVec.toNat_add s.pc 1
  | false => exact (Nat.mod_eq_of_lt s.pc.isLt).symm

/-- What an instruction that is a skip on the condition `c` leaves: PC moved by the skip, and nothing else changed. -/
theorem exec_of_skipIf {i : Instr} {s : State} {c : Bool} (h : exec i s = .next (s.skipIf c)) :
    ∃ t, exec i s = .next t ∧ Footprint.pcOnly.Bounds s t ∧
      t.pc.toNat = (s.pc.toNat + if c then 1 else 0) % 65536 :=
  ⟨_, h, s.skipIf_bounds c, s.skipIf_pc_toNat c⟩

/-- Settles O14: both forms are a skip on equality. -/
theorem seAddsOneToPcWhenEqual : Obligations.SeAddsOneToPcWhenEqual := by
  refine fun s x y kk => ⟨?constant, ?register⟩
  case constant => simpa only [beq_iff_eq] using exec_of_skipIf (i := .seVxKk x kk) (s := s) rfl
  case register => simpa only [beq_iff_eq] using exec_of_skipIf (i := .seVxVy x y) (s := s) rfl

/-- Settles O15: both forms are a skip on difference. -/
theorem sneAddsOneToPcWhenDifferent : Obligations.SneAddsOneToPcWhenDifferent := by
  refine fun s x y kk => ⟨?constant, ?register⟩
  case constant => simpa only [bne_iff_ne, ne_eq, ite_not] using exec_of_skipIf (i := .sneVxKk x kk) (s := s) rfl
  case register => simpa only [bne_iff_ne, ne_eq, ite_not] using exec_of_skipIf (i := .sneVxVy x y) (s := s) rfl

end Sys2Proof.Machine
end

section
/-! PROOF. The words `6xkk` (spec/30_encoding.md R92, spec/41_load_store.md R160). -/

namespace Sys2Proof

/-- The second nibble of a word. -/
@[simp] theorem extractLsb'_8_ofNibbles (a b c d : BitVec 4) : (ofNibbles a b c d).extractLsb' 8 4 = b := by
  obtain ⟨-, hb, -, -⟩ := ofNibbles_inj.1 (eq_ofNibbles (ofNibbles a b c d))
  exact hb.symm

/-- A word is the format-XK word of its leading nibble, its second nibble and its second byte (R92). -/
theorem formatXK_extractLsb' (w : Word) :
    formatXK (w.extractLsb' 12 4) (w.extractLsb' 8 4) (w.extractLsb' 0 8) = w := by
  obtain ⟨a, b, c, d, rfl⟩ := exists_ofNibbles w
  rw [extractLsb'_12_ofNibbles, extractLsb'_8_ofNibbles, extractLsb'_0_8_ofNibbles, formatXK_append]

/-- Every word with leading nibble 6 is LD Vx,kk, with its second nibble and its second byte (R160). -/
theorem decode_ldVxKk {w : Word} (h : w &&& 0xF000 = 0x6000) :
    decode w = .ok (.ldVxKk (w.extractLsb' 8 4) (w.extractLsb' 0 8)) := by
  have hop : w.extractLsb' 12 4 = 0x6 := (and_F000_eq_iff (by decide)).1 h
  refine decode_eq_ok_iff.2 ⟨rfl, ?_⟩
  rw [encode, ← hop, formatXK_extractLsb']

end Sys2Proof
end

section
/-! PROOF. Loads of one register: the constant, the copies between a V register and a timer, and I (spec/41_load_store.md
R160 to R165). -/

namespace Sys2Proof.Machine

/-! ### One V register -/

/-- A V register holds what is written to it. -/
theorem State.readV_writeV_same (s : State) (x : RegIdx) (b : Byte) : (s.writeV x b).readV x = b := by simp

/-- Settles O16: the words decode by their leading nibble, and Execute is one write of Vx. -/
theorem ldVxKkPutsTheConstantInVx : Obligations.LdVxKkPutsTheConstantInVx :=
  ⟨fun _ => decode_ldVxKk, fun s x kk => ⟨_, rfl, s.readV_writeV_same x kk, s.writeV_bounds x kk⟩⟩

/-- Settles O17: Vy keeps its value also when it is Vx, because what is written is that value. -/
theorem ldVxVyCopiesVy : Obligations.LdVxVyCopiesVy := by
  refine fun s x y => ⟨_, rfl, s.readV_writeV_same x _, ?_, s.writeV_bounds x _⟩
  rw [State.readV_writeV, ite_self]

/-- Settles O19: Execute is one write of Vx, which leaves DT. -/
theorem ldVxDtCopiesTheDelayTimer : Obligations.LdVxDtCopiesTheDelayTimer := fun s x =>
  ⟨_, rfl, s.readV_writeV_same x s.dt, rfl, s.writeV_bounds x s.dt⟩

/-! ### I and the timers -/

/-- The mask of LD I,nnn keeps all twelve bits of the operand (R162). -/
theorem maskedAddr_toNat (nnn : Addr12) : (maskedAddr nnn).toNat = nnn.toNat := by
  rw [maskedAddr, BitVec.toNat_and, zextAddr_toNat]
  exact Nat.and_two_pow_sub_one_of_lt_two_pow (n := 12) nnn.isLt

/-- Settles O18: Execute is one write of I, and a 12-bit number is below 0x1000. -/
theorem ldIPutsTheOperandInI : Obligations.LdIPutsTheOperandInI := fun s nnn =>
  ⟨_, rfl, maskedAddr_toNat nnn, (maskedAddr_toNat nnn).trans_lt nnn.isLt, s.setI_bounds _⟩

/-- Settles O20: each form is one write of its timer, which is also the value last written to it. -/
theorem ldDtAndLdStCopyVx : Obligations.LdDtAndLdStCopyVx := fun s _ =>
  ⟨⟨_, rfl, rfl, rfl, s.setDt_bounds _⟩, ⟨_, rfl, rfl, rfl, s.setSt_bounds _⟩⟩

end Sys2Proof.Machine
end

section
/-! PROOF. The two block transfers: what each leaves when it fits the window and when it does not, and the round trip of a
store and a load (spec/41_load_store.md R166, R167, spec/20_memory.md R78, R79, spec/60_exceptions.md R212, R216). -/

namespace Sys2Proof.Machine

/-- In a block that does not fit, an index whose byte lies below the first invalid address is one of the block's. -/
theorem State.le_of_blockAddr_lt_firstBadAddr {s : State} {x j : RegIdx} (h : ¬ s.blockFits x)
    (hj : s.blockAddr j < s.firstBadAddr) : j.toNat ≤ x.toNat := by
  obtain ⟨-, hhigh⟩ := State.firstBadAddr_mem_block h
  unfold State.blockAddr at hj
  omega

/-! ### Storing -/

/-- A store block that fits puts V0 to Vx in memory at I, and only memory changes (R166). -/
theorem exec_ldIndVx_of_blockFits {s : State} {x : RegIdx} (hw : s.mem.wf) (h : s.blockFits x) :
    ∃ m, exec (.ldIndVx x) s = .next (s.setMem m) ∧ StoredOnly s (blockIndices x) m ∧
      ∀ j : RegIdx, j.toNat ≤ x.toNat → m.get (s.blockAddr j) = s.readV j := by
  obtain ⟨m, hm, hnext⟩ := execLdIndVx_of_blockFits h
  exact ⟨m, hnext, hm, fun j hj =>
    execLdIndVx_get hw hj (State.blockAddr_lt_firstBadAddr h hj) (congrArg stateAfter hnext)⟩

/-- Settles O21: the bytes stored are those of the indices `0..=x`, from I to `I + x`. -/
theorem storeBlockWritesV0ToVx : Obligations.StoreBlockWritesV0ToVx := by
  rintro s x ⟨hw, -⟩ hfit
  obtain ⟨m, hnext, hm, hget⟩ := exec_ldIndVx_of_blockFits hw hfit
  refine ⟨_, hnext, hget, hm.bounds fun j hj => ?_⟩
  simpa [State.blockAddr] using (mem_blockIndices x j).1 hj

/-- Settles O22: the stores completed before the error are those below the first invalid address. -/
theorem storeBlockThatDoesNotFitRaisesAddressRange : Obligations.StoreBlockThatDoesNotFitRaisesAddressRange := by
  rintro s x ⟨hw, -⟩ hfit
  obtain ⟨js, m, hjs, hm, -, hraise⟩ := execLdIndVx_of_not_blockFits hfit
  refine ⟨_, hraise, fun j hj => ?_, hm.bounds fun j hj => ?_⟩
  · exact execLdIndVx_get hw (State.le_of_blockAddr_lt_firstBadAddr hfit hj) hj (congrArg stateAfter hraise)
  · exact Bool.and_eq_true_iff.2 ⟨decide_eq_true (Nat.le_add_right _ _), decide_eq_true ((hjs j).1 hj)⟩

/-! ### Loading -/

/-- A load block that fits puts the bytes at I in V0 to Vx, and only those registers change (R167). -/
theorem exec_ldVxInd_of_blockFits {s : State} {x : RegIdx} (h : s.blockFits x) :
    ∃ t, exec (.ldVxInd x) s = .next t ∧ LoadedOnly s (blockIndices x) t ∧
      ∀ j : RegIdx, j.toNat ≤ x.toNat → t.readV j = s.mem.get (s.blockAddr j) := by
  obtain ⟨t, ht, hnext⟩ := execLdVxInd_of_blockFits h
  exact ⟨t, hnext, ht, fun j hj =>
    execLdVxInd_readV hj (State.blockAddr_lt_firstBadAddr h hj) (congrArg stateAfter hnext)⟩

/-- Settles O23: the registers loaded are those of the indices `0..=x`. -/
theorem loadBlockReadsV0ToVx : Obligations.LoadBlockReadsV0ToVx := by
  intro s x hfit
  obtain ⟨t, hnext, ht, hread⟩ := exec_ldVxInd_of_blockFits hfit
  exact ⟨t, hnext, hread, ht.bounds fun j hj => decide_eq_true ((mem_blockIndices x j).1 hj)⟩

/-- Settles O24: the loads completed before the error are those below the first invalid address. -/
theorem loadBlockThatDoesNotFitRaisesAddressRange : Obligations.LoadBlockThatDoesNotFitRaisesAddressRange := by
  intro s x hfit
  obtain ⟨js, t, hjs, ht, -, hraise⟩ := execLdVxInd_of_not_blockFits hfit
  refine ⟨t, hraise, fun j hj => ?_, ht.bounds fun j hj => decide_eq_true ((hjs j).1 hj)⟩
  exact execLdVxInd_readV (State.le_of_blockAddr_lt_firstBadAddr hfit hj) hj (congrArg stateAfter hraise)

/-! ### The round trip -/

/-- A load block that leaves every V register as it was leaves the state as it was. -/
theorem LoadedOnly.eq_of_readV {s t : State} {js : List RegIdx} (h : LoadedOnly s js t)
    (hv : ∀ j, t.readV j = s.readV j) : t = s := by
  obtain ⟨hi, hpc, hsp, hdt, hst, hmem, hdtTop, hstTop, henv, -⟩ := h
  have hregs : t.v = s.v := State.v_ext s t hv
  cases s
  cases t
  simp_all only

/-- Settles O25: each register of the block is loaded from the byte it was stored to, and no other changes. -/
theorem storeThenLoadLeavesEveryRegister : Obligations.StoreThenLoadLeavesEveryRegister := by
  rintro s x ⟨hw, -⟩ hfit
  obtain ⟨m, hstore, -, hget⟩ := exec_ldIndVx_of_blockFits hw hfit
  have hfit' : (s.setMem m).blockFits x := hfit
  obtain ⟨u, hload, hu, hread⟩ := exec_ldVxInd_of_blockFits hfit'
  have hkept : ∀ j, u.readV j = (s.setMem m).readV j := by
    intro j
    by_cases hj : j.toNat ≤ x.toNat
    · exact (hread j hj).trans (hget j hj)
    · exact hu.other j (mt (mem_blockIndices x j).1 hj)
  cases hu.eq_of_readV hkept
  exact ⟨_, _, hstore, hload, fun _ => rfl, rfl, rfl, rfl, rfl, rfl, rfl, rfl⟩

end Sys2Proof.Machine
end

section
/-! PROOF. The words `8xy4` (spec/30_encoding.md R92, spec/42_arithmetic_logic.md R181). -/

namespace Sys2Proof

/-- Every word with leading nibble 8 and last nibble 4 is ADD Vx,Vy, with the two nibbles between them (R181). -/
theorem decode_addVxVy {w : Word} (h : w &&& 0xF00F = 0x8004) :
    decode w = .ok (.addVxVy (w.extractLsb' 8 4) (w.extractLsb' 4 4)) := by
  obtain ⟨hop, hfn⟩ : w.extractLsb' 12 4 = 0x8 ∧ w.extractLsb' 0 4 = 0x4 := (and_F00F_eq_iff (by decide)).1 h
  have hword := eq_ofNibbles w
  rw [hop, hfn] at hword
  exact decode_eq_ok_iff.2 ⟨rfl, hword.symm⟩

end Sys2Proof
end

section
/-! PROOF. Additions, subtractions and the bitwise operations: the ALU's results and flags as numbers, what a flagged write
leaves, and from them each instruction (spec/42_arithmetic_logic.md R180 to R190). -/

namespace Sys2Proof.Machine

/-! ### The ALU as numbers (R190) -/

theorem aluAdd_value_toNat (a b : Byte) : (aluAdd a b).value.toNat = (a.toNat + b.toNat) % 256 := BitVec.toNat_add a b

theorem aluAdd_flag_toNat (a b : Byte) : (aluAdd a b).flag.toNat = if a.toNat + b.toNat > 255 then 1 else 0 := by
  simp only [aluAdd, flagOf_toNat, decide_eq_true_eq]

theorem aluSub_value_toNat (a b : Byte) : (aluSub a b).value.toNat = (a.toNat + 256 - b.toNat) % 256 := by
  have hb : b.toNat < 256 := b.isLt
  rw [aluSub, BitVec.toNat_sub]
  congr 1
  omega

theorem aluSub_flag_toNat (a b : Byte) : (aluSub a b).flag.toNat = if a.toNat > b.toNat then 1 else 0 := by
  simp only [aluSub, flagOf_toNat, decide_eq_true_eq]

/-- SUBN's difference is SUB's, in the same order (R187, C5). -/
theorem aluSubn_value (a b : Byte) : (aluSubn a b).value = (aluSub a b).value := rfl

theorem aluSubn_flag_toNat (a b : Byte) : (aluSubn a b).flag.toNat = if a.toNat < b.toNat then 1 else 0 := by
  simp only [aluSubn, flagOf_toNat, decide_eq_true_eq]

/-- The two subtractions never flag together, and neither flags exactly on equal operands (R186, R187). -/
theorem aluSubn_flag_add_aluSub_flag (a b : Byte) :
    (aluSubn a b).flag.toNat + (aluSub a b).flag.toNat = if a = b then 0 else 1 := by
  simp only [aluSubn_flag_toNat, aluSub_flag_toNat, ← BitVec.toNat_inj]
  rcases Nat.lt_trichotomy a.toNat b.toNat with hlt | heq | hgt
  · rw [if_pos hlt, if_neg hlt.asymm, if_neg hlt.ne]
  · rw [if_neg heq.not_lt, if_neg heq.not_gt, if_pos heq]
  · rw [if_neg hgt.asymm, if_pos hgt, if_neg hgt.ne']

/-! ### Flagged writes -/

/-- The result stands in Vx, also when Vx is VF (R189, D9). -/
theorem State.readV_writeFlagged_same (s : State) (x : RegIdx) (r : AluOut) :
    (s.writeFlagged x r).readV x = r.value := by
  rw [State.readV_writeFlagged, if_pos rfl]

/-- The flag stands in VF when the result goes to another register (R189). -/
theorem State.readV_writeFlagged_vf (s : State) {x : RegIdx} (r : AluOut) (hx : x ≠ vf) :
    (s.writeFlagged x r).readV vf = r.flag := by
  rw [State.readV_writeFlagged, if_neg hx.symm, if_pos rfl]

/-- What an instruction that is a flagged write leaves: the result in Vx, the flag in VF unless Vx is VF, and nothing else
changed. -/
theorem exec_of_writeFlagged {i : Instr} {s : State} {x : RegIdx} {r : AluOut} {value flag : Nat}
    (h : exec i s = .next (s.writeFlagged x r)) (hvalue : r.value.toNat = value) (hflag : r.flag.toNat = flag) :
    ∃ t, exec i s = .next t ∧ (t.readV x).toNat = value ∧ (x ≠ 15 → (t.readV 15).toNat = flag) ∧
      (Footprint.flagged x).Bounds s t := by
  refine ⟨_, h, ?_, fun hx => ?_, s.writeFlagged_bounds x r⟩
  · rw [State.readV_writeFlagged_same, hvalue]
  · rw [← hflag, ← s.readV_writeFlagged_vf r hx, vf]

/-! ### The additions -/

/-- Settles O27: the words decode by their first and last nibble, and Execute is the flagged write of the ALU's sum. -/
theorem addVxVySetsSumAndCarry : Obligations.AddVxVySetsSumAndCarry :=
  ⟨fun _ => decode_addVxVy, fun _ _ _ => exec_of_writeFlagged rfl (aluAdd_value_toNat _ _) (aluAdd_flag_toNat _ _)⟩

/-- Settles O26: Execute is one write of Vx with the ALU's sum, and no write of a flag. -/
theorem addVxKkAddsWithoutFlag : Obligations.AddVxKkAddsWithoutFlag := by
  refine fun s x kk => ⟨_, rfl, ?_, s.writeV_bounds x _⟩
  rw [State.readV_writeV_same, aluAdd_value_toNat]

/-- Zero extension keeps a byte's number (R7, R182). -/
@[simp] theorem zextByte_toNat (b : Byte) : (zextByte b).toNat = b.toNat := BitVec.toNat_setWidth_of_le (by decide)

/-- Settles O28: Execute is one write of I with a 16-bit sum. -/
theorem addIVxAddsToIWithoutMask : Obligations.AddIVxAddsToIWithoutMask := by
  refine fun s x => ⟨_, rfl, ?_, s.setI_bounds _⟩
  rw [State.setI_i, BitVec.toNat_add, zextByte_toNat]

/-! ### The bitwise operations -/

/-- Settles O29: each form is one write of Vx with a bitwise operation on bytes. -/
theorem logicActsOnEachBitWithoutFlag : Obligations.LogicActsOnEachBitWithoutFlag := by
  refine fun s x y => ⟨⟨_, rfl, s.writeV_bounds x _, fun k => ?or⟩, ⟨_, rfl, s.writeV_bounds x _, fun k => ?and⟩,
    ⟨_, rfl, s.writeV_bounds x _, fun k => ?xor⟩⟩
  case or => rw [State.readV_writeV_same, BitVec.getLsbD_or]
  case and => rw [State.readV_writeV_same, BitVec.getLsbD_and]
  case xor => rw [State.readV_writeV_same, BitVec.getLsbD_xor]

/-! ### The subtractions -/

/-- Settles O30: Execute is the flagged write of the ALU's difference. -/
theorem subSetsDifferenceAndStrictGreater : Obligations.SubSetsDifferenceAndStrictGreater := fun _ _ _ =>
  exec_of_writeFlagged rfl (aluSub_value_toNat _ _) (aluSub_flag_toNat _ _)

/-- Settles O31: both instructions are flagged writes of one difference, with the two strict comparisons as flags. -/
theorem subnSetsTheSameDifferenceAndStrictLess : Obligations.SubnSetsTheSameDifferenceAndStrictLess := by
  intro s x y
  obtain ⟨t, ht, hvalue, hflag, hbounds⟩ := exec_of_writeFlagged (i := .subnVxVy x y) (s := s) rfl rfl rfl
  obtain ⟨u, hu, hvalue', hflag', -⟩ := exec_of_writeFlagged (i := .subVxVy x y) (s := s) rfl rfl rfl
  refine ⟨t, u, ht, hu, ?_, BitVec.eq_of_toNat_eq (hvalue.trans hvalue'.symm), fun hx => ?_, fun hx => ?_, hbounds⟩
  · rw [hvalue, aluSubn_value, aluSub_value_toNat]
  · rw [hflag hx, aluSubn_flag_toNat]
  · rw [hflag hx, hflag' hx, aluSubn_flag_add_aluSub_flag]

end Sys2Proof.Machine
end

section
/-! PROOF. The two shifts: the ALU's shifts and shifted-out bits as numbers, and the flagged writes of Vx that Execute makes
of them without reading Vy (spec/43_shift.md R200 to R202). -/

namespace Sys2Proof.Machine

/-! ### The shifts as numbers (R190) -/

/-- The lowest bit of a byte is its remainder modulo 2. -/
theorem byte_and_one_toNat (b : Byte) : (b &&& 1).toNat = b.toNat % 2 :=
  (BitVec.toNat_and b 1).trans (Nat.and_one_is_mod _)

theorem aluShr_value_toNat (a : Byte) : (aluShr a).value.toNat = a.toNat / 2 := by
  rw [aluShr, BitVec.toNat_ushiftRight, Nat.shiftRight_eq_div_pow, pow_one]

/-- The bit shifted out at the bottom is the remainder of the halving (R200). -/
theorem aluShr_flag_toNat (a : Byte) : (aluShr a).flag.toNat = a.toNat % 2 := byte_and_one_toNat a

theorem aluShl_value_toNat (a : Byte) : (aluShl a).value.toNat = 2 * a.toNat % 256 := by
  rw [aluShl, BitVec.toNat_shiftLeft, Nat.shiftLeft_eq, pow_one, Nat.mul_comm]

/-- The bit shifted out at the top is set exactly from 128 up (R201). -/
theorem aluShl_flag_toNat (a : Byte) : (aluShl a).flag.toNat = a.toNat / 128 := by
  have hshift : (a >>> 7).toNat = a.toNat / 128 :=
    (BitVec.toNat_ushiftRight a 7).trans (Nat.shiftRight_eq_div_pow _ 7)
  have hbit : a.toNat / 128 < 2 := Nat.div_lt_of_lt_mul a.isLt
  rw [aluShl, byte_and_one_toNat, hshift, Nat.mod_eq_of_lt hbit]

/-! ### Execute -/

/-- Settles O32: Execute is the flagged write of Vx halved, the same write for every `y`. -/
theorem shrHalvesVxAndShiftsOutTheLowBit : Obligations.ShrHalvesVxAndShiftsOutTheLowBit := by
  intro s x y
  obtain ⟨t, ht, hvalue, hflag, hbounds⟩ := exec_of_writeFlagged (i := .shrVxVy x y) (s := s) rfl
    (aluShr_value_toNat _) (aluShr_flag_toNat _)
  exact ⟨t, ht, hvalue, hflag, hbounds, fun _ => ht⟩

/-- Settles O33: Execute is the flagged write of Vx doubled, the same write for every `y`. -/
theorem shlDoublesVxAndShiftsOutTheHighBit : Obligations.ShlDoublesVxAndShiftsOutTheHighBit := by
  intro s x y
  obtain ⟨t, ht, hvalue, hflag, hbounds⟩ := exec_of_writeFlagged (i := .shlVxVy x y) (s := s) rfl
    (aluShl_value_toNat _) (aluShl_flag_toNat _)
  exact ⟨t, ht, hvalue, hflag, hbounds, fun _ => ht⟩

end Sys2Proof.Machine
end

section
/-! PROOF. Runs over words that always complete: one step, one turn of the host before a step, and from these every run
(spec/60_exceptions.md R217, R226, spec/70_reset_and_hazards.md R252, R255, R256). -/

namespace Sys2Proof.Machine

/-! ### One step -/

/-- Whether every word completes is a matter of the word list alone. -/
theorem State.OnlyCompleting.of_words_eq {s t : State} (hs : s.OnlyCompleting)
    (h : t.env.seq.words = s.env.seq.words) : t.OnlyCompleting := by
  unfold State.OnlyCompleting
  rwa [h]

/-- When no word is selected after the timer agent's turn, the run ends in the state the agent left (R255). -/
theorem step_of_no_word {s : State} (h : s.timerActs.nextWord = none) : step s = .fault (.runEnded s.timerActs) := by
  simp only [step, runStep, h]

/-- A word that decodes to an instruction whose condition holds after the advance: the step answers a next state, and no
agent and no instruction touches the word list. -/
theorem step_of_completes {s : State} {w : Word} {a : Nat} {i : Instr} (hw : s.timerActs.nextWord = some (w, a))
    (hd : decode w = .ok i) (hc : Completes i s.timerActs.advance) :
    ∃ t, step s = .next t ∧ t.env.seq.words = s.env.seq.words := by
  obtain ⟨t, ht⟩ := exec_of_completes hc
  refine ⟨t, by rw [step_of_decode hw hd, ht, settle_next], ?_⟩
  obtain ⟨-, -, -, -, -, hseq, -⟩ := s.timerActs_keeps
  have hexec := exec_changesNamed (congrArg stateAfter ht)
  calc t.env.seq.words
    _ = s.timerActs.advance.env.seq.words := hexec.words
    _ = s.timerActs.env.seq.words := (s.timerActs.advance_changesNamed (.ok i)).words
    _ = s.env.seq.words := by rw [hseq]

/-- Over words that always complete, a step answers a next state with the same words, or no word is selected and the run
ends normally (R255). -/
theorem State.OnlyCompleting.step_cases {s : State} (hs : s.OnlyCompleting) :
    (∃ t, step s = .next t ∧ t.env.seq.words = s.env.seq.words) ∨ ∃ t, step s = .fault (.runEnded t) := by
  cases hw : s.timerActs.nextWord with
  | none => exact .inr ⟨_, step_of_no_word hw⟩
  | some offered =>
    obtain ⟨w, a⟩ := offered
    obtain ⟨-, -, -, -, -, hseq, -⟩ := s.timerActs_keeps
    obtain ⟨i, hd, hc⟩ := hs w (hseq ▸ State.nextWord_mem hw)
    exact .inl (step_of_completes hw hd (hc _))

/-! ### A run -/

/-- A turn and a step that both go on hand the run to the turns that follow. -/
theorem SafeRun.cons_of_next {turn : List HostAct} {turns : List (List HostAct)} {s t u : State}
    (hturn : hostTurn turn s = .next t) (hstep : step t = .next u) (h : SafeRun turns u) :
    SafeRun (turn :: turns) s := by
  simpa only [SafeRun, runHosted, hturn, hstep] using h

/-- A step that ends the run normally makes the run safe, whatever turns were left. -/
theorem SafeRun.cons_of_runEnded {turn : List HostAct} (turns : List (List HostAct)) {s t u : State}
    (hturn : hostTurn turn s = .next t) (hstep : step t = .fault (.runEnded u)) : SafeRun (turn :: turns) s :=
  .inr ⟨u, by simp only [runHosted, hturn, hstep]⟩

/-- Over words that always complete, a run is safe when the host stays in the window: no turn of the host touches the
words, and no step does (R226, R256). -/
theorem State.OnlyCompleting.safeRun {host : List (List HostAct)} {s : State} (hs : s.OnlyCompleting)
    (hhost : ∀ turn ∈ host, ∀ act ∈ turn, act.inWindow = true) : SafeRun host s := by
  induction host generalizing s with
  | nil => exact .inl ⟨s, rfl⟩
  | cons turn turns ih =>
    rw [List.forall_mem_cons] at hhost
    obtain ⟨hfirst, hrest⟩ := hhost
    obtain ⟨t, hturn, henv⟩ := hostTurn_inWindow hfirst s
    have ht : t.OnlyCompleting := hs.of_words_eq (by rw [henv])
    rcases ht.step_cases with ⟨u, hstep, hwords⟩ | ⟨u, hstep⟩
    · exact .cons_of_next hturn hstep (ih (ht.of_words_eq hwords) hrest)
    · exact .cons_of_runEnded turns hturn hstep

/-- A silent host does nothing outside the window. -/
theorem HostSilent.inWindow {host : List (List HostAct)} (h : HostSilent host) :
    ∀ turn ∈ host, ∀ act ∈ turn, act.inWindow = true := by
  intro turn hturn act hact
  rw [h turn hturn] at hact
  cases hact

/-- A schedule of empty turns is the core's own run: each turn is one step (R226). -/
theorem runHosted_silent (k : Nat) (s : State) : runHosted (List.replicate k []) s = core.run k s := by
  induction k generalizing s with
  | zero => rfl
  | succ k ih =>
    have hcore : core.step s = step s := rfl
    simp only [List.replicate_succ, runHosted, hostTurn_nil, Host.Core.run, hcore]
    cases step s with
    | next t => exact ih t
    | fault f => rfl
    | refused r => rfl

/-- Settles O54: one step by the offered word, every run by induction over the host's turns. -/
theorem runsWithoutErrorWordsAreSafe : Obligations.RunsWithoutErrorWordsAreSafe :=
  ⟨fun _ => State.OnlyCompleting.step_cases, fun _ _ hs hsilent => hs.safeRun hsilent.inWindow,
    fun _ _ => State.OnlyCompleting.safeRun, runHosted_silent⟩

end Sys2Proof.Machine
end

section
/-! PROOF. The timer agent's draws and the bound on the timers, over every step and every act of the host
(spec/10_state.md R30, R31, spec/60_exceptions.md R220, log 6, log 23). -/

namespace Sys2Proof.Machine

/-! ### A draw that is read -/

/-- The draws from `v` are exactly the values not above it (R220). -/
theorem exists_drawUpTo_eq_iff {v d : Byte} : (∃ free, drawUpTo free v = d) ↔ d.toNat ≤ v.toNat := by
  constructor
  · rintro ⟨free, rfl⟩
    exact drawUpTo_le free v
  · exact fun h => ⟨d, drawUpTo_self h⟩

/-- Settles O48: the fetch's advance keeps what the agent drew, and LD Vx,DT writes Vx alone. -/
theorem timerAgentDrawsUpToTheLastWrittenValue : Obligations.TimerAgentDrawsUpToTheLastWrittenValue := by
  refine ⟨fun _ _ => exists_drawUpTo_eq_iff, fun s w a n x htimer hw hd => ?_⟩
  obtain ⟨hv, hi, hsp, hdt, hst, hmem, -, -, -, -, hagent, -, -, hdtTop, hstTop⟩ := s.timerActs.advance_keeps
  rw [State.timerActs_present htimer] at hv hi hsp hdt hst hmem hagent hdtTop hstTop
  refine ⟨_, step_of_decode hw hd, s.timerActs.advance.readV_writeV_same x _, ?_⟩
  rw [State.timerActs_present htimer]
  refine ⟨hdt, hst, hdtTop, hstTop, hagent, hi, hsp, hmem, fun j hj => ?_⟩
  rw [State.readV_writeV, if_neg hj, State.readV, hv]
  rfl

/-! ### The bound on the timers -/

/-- The bound speaks of the two timers and the values last written to them alone. -/
theorem State.TimersBounded.of_eq {s t : State} (hs : s.TimersBounded) (hdt : t.dt = s.dt) (hst : t.st = s.st)
    (hdtTop : t.dtTop = s.dtTop) (hstTop : t.stTop = s.stTop) : t.TimersBounded := by
  unfold State.TimersBounded
  rwa [hdt, hst, hdtTop, hstTop]

/-- A write of DT is its own bound. -/
theorem State.TimersBounded.setDt {s : State} (hs : s.TimersBounded) (b : Byte) : (s.setDt b).TimersBounded :=
  ⟨Nat.le_refl _, hs.2⟩

/-- A write of ST is its own bound. -/
theorem State.TimersBounded.setSt {s : State} (hs : s.TimersBounded) (b : Byte) : (s.setSt b).TimersBounded :=
  ⟨hs.1, Nat.le_refl _⟩

/-- The timer agent draws within the bounds, and leaves them (R220). -/
theorem State.TimersBounded.timerActs {s : State} (hs : s.TimersBounded) : s.timerActs.TimersBounded := by
  cases htimer : s.env.timer with
  | absent => rwa [State.timerActs_absent htimer]
  | present n =>
    rw [State.timerActs_present htimer]
    exact ⟨drawUpTo_le _ _, drawUpTo_le _ _⟩

/-- The fetch's advance touches no timer. -/
theorem State.TimersBounded.advance {s : State} (hs : s.TimersBounded) : s.advance.TimersBounded := by
  obtain ⟨-, -, -, hdt, hst, -, -, -, -, -, -, -, -, hdtTop, hstTop⟩ := s.advance_keeps
  exact hs.of_eq hdt hst hdtTop hstTop

/-- An instruction other than the two timer writes touches no timer (R30, R31). -/
theorem State.TimersBounded.exec_of_ne {i : Instr} {s t : State} (hs : s.TimersBounded)
    (hdt : ∀ x, i ≠ .ldDtVx x) (hst : ∀ x, i ≠ .ldStVx x) (h : stateAfter (exec i s) = some t) :
    t.TimersBounded := by
  have hc := exec_changesNamed h
  obtain ⟨hdt, hdtTop⟩ := hc.dt fun x heq => hdt x (Except.ok.inj heq)
  obtain ⟨hst, hstTop⟩ := hc.st fun x heq => hst x (Except.ok.inj heq)
  exact hs.of_eq hdt hst hdtTop hstTop

/-- Execute keeps the bound: LD DT,Vx and LD ST,Vx set it, every other instruction touches no timer. -/
theorem State.TimersBounded.exec {i : Instr} {s t : State} (hs : s.TimersBounded)
    (h : stateAfter (exec i s) = some t) : t.TimersBounded := by
  cases i with
  | ldDtVx x => cases h; exact hs.setDt _
  | ldStVx x => cases h; exact hs.setSt _
  | _ => exact hs.exec_of_ne (by simp) (by simp) h

/-- A step keeps the bound, whatever the timer agent draws and whatever the outcome. -/
theorem State.TimersBounded.step {s t : State} (hs : s.TimersBounded) (h : stateAfter (step s) = some t) :
    t.TimersBounded := by
  rcases step_leaves h with ⟨-, rfl⟩ | ⟨w, a, -, u, htu, hu⟩
  · exact hs.timerActs
  · have hu : u.TimersBounded := by
      rcases hu with ⟨-, rfl⟩ | ⟨i, -, hi⟩
      · exact hs.timerActs.advance
      · exact hs.timerActs.advance.exec hi
    rcases htu with rfl | ⟨e, rfl⟩
    · exact hu
    · exact hu.of_eq rfl rfl rfl rfl

/-- A write through `reg8` keeps the bound: a timer it writes is its own bound (R38). -/
theorem State.TimersBounded.reg8Write {s : State} (hs : s.TimersBounded) (r : Reg8) (n : Nat) :
    (s.reg8Write r n).TimersBounded := by
  cases r with
  | v x => exact hs.of_eq rfl rfl rfl rfl
  | dt => exact hs.setDt _
  | st => exact hs.setSt _
  | sp => exact hs.of_eq rfl rfl rfl rfl

/-- A write through `reg16` touches no timer (R39). -/
theorem State.TimersBounded.reg16Write {s : State} (hs : s.TimersBounded) (r : Reg16) (n : Nat) :
    (s.reg16Write r n).TimersBounded := by
  cases r with
  | i | pc => exact hs.of_eq rfl rfl rfl rfl

/-- A byte the host reads, or an address it may not read, leaves the state as it is (R62, R65). -/
theorem State.hostAct_memRead_leaves (s : State) (a : Nat) : stateAfter (s.hostAct (.memRead a)) = some s := by
  rcases s.memRead_cases a with ⟨-, hread⟩ | ⟨-, hread⟩ <;> simp only [hostAct, hostRead, hread] <;> rfl

/-- A byte the host writes, or an address it may not write, leaves everything but memory as it is (R63, R65). -/
theorem State.hostAct_memWrite_leaves (s : State) (a n : Nat) :
    ∃ m, stateAfter (s.hostAct (.memWrite a n)) = some (s.setMem m) := by
  rcases s.memWrite_cases a (BitVec.ofNat 8 n) with ⟨-, hwrite⟩ | ⟨-, hwrite⟩
  · exact ⟨_, by simp only [hostAct, hostWrite, hwrite]; rfl⟩
  · exact ⟨s.mem, by simp only [hostAct, hostWrite, hwrite]; rfl⟩

/-- An act of the host keeps the bound: a register port by its write, a memory port because it touches no timer. -/
theorem State.TimersBounded.hostAct {s t : State} {act : HostAct} (hs : s.TimersBounded)
    (h : stateAfter (s.hostAct act) = some t) : t.TimersBounded := by
  cases act with
  | reg8 r n => cases h; exact hs.reg8Write r n
  | reg16 r n => cases h; exact hs.reg16Write r n
  | memRead a => cases (s.hostAct_memRead_leaves a).symm.trans h; exact hs
  | memWrite a n =>
    obtain ⟨m, hm⟩ := s.hostAct_memWrite_leaves a n
    cases hm.symm.trans h
    exact hs.of_eq rfl rfl rfl rfl

/-- Settles O59: the bound through the timer agent, the advance and Execute, and through each port. -/
theorem timersNeverExceedTheirLastWrittenValue : Obligations.TimersNeverExceedTheirLastWrittenValue :=
  fun _ hs => ⟨fun _ => hs.step, fun _ _ => hs.hostAct⟩

end Sys2Proof.Machine
end

section
/-! PROOF. What the host's policy makes of an error at a step (spec/60_exceptions.md R216, R217, R226 (d), log 7). -/

namespace Sys2Proof.Machine

/-- When a word is offered after the timer agent's turn, the step is what the core answers to it after the advance,
under the host's policy (R11, R252). -/
theorem step_of_nextWord {s : State} {w : Word} {a : Nat} (hw : s.timerActs.nextWord = some (w, a)) :
    step s = settle s.env.policy (present w a s.timerActs.advance) := by
  obtain ⟨-, -, -, -, -, -, hpolicy, -, -, -⟩ := s.timerActs_keeps
  simp only [step, runStep, hw, hpolicy]

/-- Noting an error changes the surroundings alone (R216). -/
theorem State.noteError_bounds (s : State) (e : CoreError) :
    ({ env := true } : Footprint).Bounds s (s.noteError e) := by
  simp [Footprint.Bounds, State.noteError]

/-- Settles O47: the policy's two reactions to an error. -/
theorem errorPolicyEndsTheRunOrCarriesOn : Obligations.ErrorPolicyEndsTheRunOrCarriesOn := by
  intro s w a e u hw hpresent
  have hstep : step s = settle s.env.policy (raise e u) := by rw [step_of_nextWord hw, hpresent, raise]
  rw [hstep]
  rcases settle_raise s.env.policy e u with ⟨hend, hsettle⟩ | ⟨hcarry, hsettle⟩
  · exact ⟨fun _ => hsettle, fun hcarry => absurd (hend.symm.trans hcarry) (by decide)⟩
  · exact ⟨fun hend => absurd (hend.symm.trans hcarry) (by decide), fun _ => ⟨_, hsettle, u.noteError_bounds e, rfl, rfl⟩⟩

end Sys2Proof.Machine
end

section
/-! PROOF. How a step moves PC under SEQ-W, and the end of a run when no word is selected
(spec/70_reset_and_hazards.md R252, R253, R255). -/

namespace Sys2Proof.Machine

/-! ### The end of a run -/

/-- With no timer agent, a slot past the end of the word list ends the run in the state as it is (R255 (a)). -/
theorem step_of_slot_past_end {s : State} (htimer : s.env.timer = .absent)
    (hslot : s.env.seq.words.length ≤ s.slot) : step s = .fault (.runEnded s) := by
  have hquiet := State.timerActs_absent htimer
  have hnone : s.timerActs.nextWord = none := by rw [hquiet, State.nextWord_none hslot]
  rw [step_of_no_word hnone, hquiet]

/-- Settles O45: under each sequencer the slot is past the end of the word list. -/
theorem runEndsWhenNoWordIsSelected : Obligations.RunEndsWhenNoWordIsSelected := fun _ htimer =>
  ⟨fun hkind hend => step_of_slot_past_end htimer (State.slot_wordSlot hkind ▸ hend),
    fun hkind hend => step_of_slot_past_end htimer (State.slot_stream hkind ▸ hend)⟩

/-! ### PC -/

/-- A step that goes on leaves PC as Execute left it, also when the host carries on from an error (R216, R217). -/
theorem step_next_pc {s t : State} {w : Word} {i : Instr} (htimer : s.env.timer = .absent)
    (hw : s.env.seq.words[s.slot]? = some w) (hd : decode w = .ok i) (h : step s = .next t) :
    ∃ u, stateAfter (exec i s.advance) = some u ∧ t.pc = u.pc := by
  obtain ⟨v, a, hv, hcore⟩ := step_next_cases h
  rw [State.timerActs_absent htimer] at hv hcore
  cases (State.nextWord_some hw).symm.trans hv
  rw [present_ok hd] at hcore
  rcases hcore with hnext | ⟨e, u, hraise, -, rfl⟩
  · exact ⟨t, congrArg stateAfter hnext, rfl⟩
  · exact ⟨u, congrArg stateAfter hraise, rfl⟩

/-- An instruction whose footprint leaves out PC leaves PC alone, whatever the outcome. -/
theorem exec_pc_of_footprint {i : Instr} {s t : State} (h : stateAfter (exec i s) = some t)
    (hf : (footprint i s).pc = false) : t.pc = s.pc := by
  obtain ⟨-, -, hpc, -⟩ := execWritesOnlyItsFootprint i s t h
  exact hpc hf

/-- A skip after the fetch's advance moves PC by 2 in all when it is taken, and by 1 when it is not (R28, R253). -/
theorem State.skipIf_pc_of_advanced (s : State) (c : Bool) :
    ((s.setPc (s.pc + 1)).skipIf c).pc = if c then s.pc + 2 else s.pc + 1 := by
  rw [State.skipIf_pc, State.setPc_pc, BitVec.add_assoc]
  rfl

/-- Settles O44: Execute after the advance writes PC for JP and the four skips alone. -/
theorem wordSlotStepMovesPcAsTheSpecSays : Obligations.WordSlotStepMovesPcAsTheSpecSays := by
  intro s t w i htimer hkind hw hd hstep
  rw [← State.slot_wordSlot hkind] at hw
  obtain ⟨u, hu, hpc⟩ := step_next_pc htimer hw hd hstep
  rw [State.advance_wordSlot hkind] at hu
  rw [hpc]
  cases i with
  | jp nnn =>
    cases hu
    exact (BitVec.ofNat_toNat 16 nnn).symm
  | seVxKk | seVxVy =>
    cases hu
    simp only [State.skipIf_pc_of_advanced, State.readV_setPc, beq_iff_eq]
  | sneVxKk | sneVxVy =>
    cases hu
    simp only [State.skipIf_pc_of_advanced, State.readV_setPc, bne_iff_ne, ne_eq, ite_not]
  | _ => exact exec_pc_of_footprint hu rfl

end Sys2Proof.Machine
end
